-- ==== Sys2Proof/Word.lean ====
section
/-! DEFINITION. The word types of the TomsDataOnion VM core and the names the spec gives its
registers and mnemonics (spec/00_scope.md R3, R10, R13; spec/10_state.md R20, R22). -/

namespace Sys2Proof

/-- A `u8` (R13): the contents of an 8-bit register, of one byte of memory, of one output byte. -/
abbrev Byte := BitVec 8

/-- A `u32` (R13): the contents of a 32-bit register, or a 32-bit operand. -/
abbrev Word := BitVec 32

/-- A field value (R10, R17): the number 0..7 held in a 3-bit register field of an opcode byte. -/
abbrev Field := BitVec 3

/-- The six registers of the 8-bit register file (R20). -/
inductive Reg8 where
  | a | b | c | d | e | f
  deriving DecidableEq, Repr

/-- The six registers of the 32-bit register file (R22). -/
inductive Reg32 where
  | la | lb | lc | ld | ptr | pc
  deriving DecidableEq, Repr

/-- The thirteen mnemonics of the closed instruction set (R3). -/
inductive Mnemonic where
  | halt | out | jez | jnz | cmp | add | sub | xor | aptr | mv | mvi | mv32 | mvi32
  deriving DecidableEq, Repr

end Sys2Proof
end

