-- ==== Sys2Proof/Syntax.lean ====
section
/-! DEFINITION. The instruction set: one constructor for each of the thirteen mnemonics the 113 rows
of the opcode table spell (spec/00_scope.md R3, spec/30_encoding.md R78). The rows of MV, MVI, MV32
and MVI32 differ only in the register fields of the opcode byte, which are the constructors'
arguments, so every row is a constructor applied to the row's field values (R71, R84). -/

namespace Sys2Proof

/-- A decoded instruction (R84): the mnemonic, the field values where the format has them and the
immediate where the format has one. -/
inductive Instr where
  /-- `HALT` (R170) -/
  | halt
  /-- `OUT` (R130) -/
  | out
  /-- `JEZ target32` (R120) -/
  | jez (target : Word)
  /-- `JNZ target32` (R121) -/
  | jnz (target : Word)
  /-- `CMP` (R103) -/
  | cmp
  /-- `ADD` (R100) -/
  | add
  /-- `SUB` (R101) -/
  | sub
  /-- `XOR` (R102) -/
  | xor
  /-- `APTR imm8` (R104) -/
  | aptr (imm : Byte)
  /-- `MV dst, src` (R142) -/
  | mv (dst src : Field)
  /-- `MVI dst, imm8` (R146) -/
  | mvi (dst : Field) (imm : Byte)
  /-- `MV32 dst, src` (R144) -/
  | mv32 (dst src : Field)
  /-- `MVI32 dst, imm32` (R147) -/
  | mvi32 (dst : Field) (imm : Word)
  deriving DecidableEq, Repr

end Sys2Proof
end

