-- ==== Sys2Proof/WellFormed.lean ====
section
/-! DEFINITION. Which instruction terms the opcode table spells (spec/30_encoding.md R78): the checks
on the register fields of the four moves. Every other term is well formed whatever its operand,
because no operand byte has a reserved value (R82). -/

namespace Sys2Proof

/-- MV (R78, R142): both fields in `1..7` and not both the memory operand. -/
def Instr.wfMv (dst src : Field) : Bool :=
  dst != 0#3 && src != 0#3 && !(dst == 7#3 && src == 7#3)

/-- MV32 (R78, R144): the destination in `1..7`, the source in `1..6`. -/
def Instr.wfMv32 (dst src : Field) : Bool :=
  dst != 0#3 && src != 0#3 && src != 7#3

/-- The instruction is one the opcode table spells (R78). -/
def Instr.wf : Instr → Bool
  | .halt => true
  | .out => true
  | .jez _ => true
  | .jnz _ => true
  | .cmp => true
  | .add => true
  | .sub => true
  | .xor => true
  | .aptr _ => true
  | .mv dst src => wfMv dst src
  | .mvi dst _ => dst != 0#3
  | .mv32 dst src => wfMv32 dst src
  | .mvi32 dst _ => dst != 0#3

end Sys2Proof
end

