-- ==== Sys2Proof/Decode.lean ====
section
/-! DEFINITION. The decoder and the encoder (spec/30_encoding.md). The decoder is total on any bytes
and rejects by name; the order of its checks is that of R85. -/

namespace Sys2Proof

/-! ### Bit fields and byte order -/

/-- `op[7:6]`, the width class (R71). -/
def widthClass (op : Byte) : BitVec 2 := op.extractLsb' 6 2

/-- `op[5:3]`, the destination field (R71). -/
def dstField (op : Byte) : Field := op.extractLsb' 3 3

/-- `op[2:0]`, the source field (R71). -/
def srcField (op : Byte) : Field := op.extractLsb' 0 3

/-- `le32(b0, b1, b2, b3)` (R14): the little-endian 32-bit operand (R58, R74). -/
def le32 (b0 b1 b2 b3 : Byte) : Word := b3 ++ b2 ++ b1 ++ b0

/-- Byte `k` of a 32-bit value: `v[8k+7 : 8k]` (R13, R88). -/
def byteOf (v : Word) (k : Nat) : Byte := v.extractLsb' (8 * k) 8

/-! ### The opcode table -/

/-- The opcode table as field conditions (R78). `none` is an invalid opcode byte (R80, R81). -/
def mnemonicOf (op : Byte) : Option Mnemonic :=
  if op = 0x01#8 then some .halt
  else if op = 0x02#8 then some .out
  else if op = 0x21#8 then some .jez
  else if op = 0x22#8 then some .jnz
  else if op = 0xC1#8 then some .cmp
  else if op = 0xC2#8 then some .add
  else if op = 0xC3#8 then some .sub
  else if op = 0xC4#8 then some .xor
  else if op = 0xE1#8 then some .aptr
  else if widthClass op = 0b01#2 ∧ dstField op ≠ 0#3 then
    if srcField op = 0#3 then some .mvi
    else if dstField op = 7#3 ∧ srcField op = 7#3 then none
    else some .mv
  else if widthClass op = 0b10#2 ∧ dstField op ≠ 0#3 then
    if srcField op = 0#3 then some .mvi32
    else if srcField op = 7#3 then none
    else some .mv32
  else none

/-- The length in bytes, by mnemonic class (R70, R83). -/
def Mnemonic.len : Mnemonic → Nat
  | .jez => 5
  | .jnz => 5
  | .mvi32 => 5
  | .aptr => 2
  | .mvi => 2
  | .halt => 1
  | .out => 1
  | .cmp => 1
  | .add => 1
  | .sub => 1
  | .xor => 1
  | .mv => 1
  | .mv32 => 1

/-- The mnemonic of an instruction. -/
def Instr.mnemonic : Instr → Mnemonic
  | .halt => .halt
  | .out => .out
  | .jez _ => .jez
  | .jnz _ => .jnz
  | .cmp => .cmp
  | .add => .add
  | .sub => .sub
  | .xor => .xor
  | .aptr _ => .aptr
  | .mv _ _ => .mv
  | .mvi _ _ => .mvi
  | .mv32 _ _ => .mv32
  | .mvi32 _ _ => .mvi32

/-- `I.len` (R84, R96): the bytes an instruction occupies. -/
def Instr.len (i : Instr) : Nat := i.mnemonic.len

/-! ### The decoder -/

/-- `imm8` (R73): the byte after the opcode, `fetch` reading byte `k` of the instruction. -/
def fetchImm8 {ε : Type} (fetch : Nat → Except ε Byte) : Except ε Byte := fetch 1

/-- `imm32` (R74): the four bytes after the opcode, fetched lowest address first (R85). -/
def fetchImm32 {ε : Type} (fetch : Nat → Except ε Byte) : Except ε Word :=
  match fetch 1 with
  | .error r => .error r
  | .ok b0 =>
    match fetch 2 with
    | .error r => .error r
    | .ok b1 =>
      match fetch 3 with
      | .error r => .error r
      | .ok b2 =>
        match fetch 4 with
        | .error r => .error r
        | .ok b3 => .ok (le32 b0 b1 b2 b3)

/-- The instruction of a table row once the mnemonic is known: the fields come from the opcode byte,
the immediate from the bytes after it (R71, R73, R74, R85). -/
def decodeOperands {ε : Type} (mn : Mnemonic) (op : Byte) (fetch : Nat → Except ε Byte) :
    Except ε Instr :=
  match mn with
  | .halt => .ok .halt
  | .out => .ok .out
  | .jez => (fetchImm32 fetch).map .jez
  | .jnz => (fetchImm32 fetch).map .jnz
  | .cmp => .ok .cmp
  | .add => .ok .add
  | .sub => .ok .sub
  | .xor => .ok .xor
  | .aptr => (fetchImm8 fetch).map .aptr
  | .mv => .ok (.mv (dstField op) (srcField op))
  | .mvi => (fetchImm8 fetch).map (.mvi (dstField op))
  | .mv32 => .ok (.mv32 (dstField op) (srcField op))
  | .mvi32 => (fetchImm32 fetch).map (.mvi32 (dstField op))

/-- The decode algorithm of R85, over whatever `fetch` reads the instruction's byte `k`: the opcode
fetch, then the table, then the operand fetches; the first that fails decides (R186). `unknown` is
what an opcode absent from the table raises. -/
def decodeWith {ε : Type} (unknown : Byte → ε) (fetch : Nat → Except ε Byte) : Except ε Instr :=
  match fetch 0 with
  | .error r => .error r
  | .ok op =>
    match mnemonicOf op with
    | none => .error (unknown op)
    | some mn => decodeOperands mn op fetch

/-- Why a list of bytes starts with no instruction. -/
inductive Reject where
  /-- The opcode byte is absent from the table (R80). -/
  | unknownOpcode (op : Byte)
  /-- Byte `k` of the instruction lies beyond the end of the list (R55, R85). -/
  | truncated (k : Nat)
  deriving DecidableEq, Repr

/-- Byte `k` of a list of bytes. -/
def byteAt (bytes : List Byte) (k : Nat) : Except Reject Byte :=
  match bytes[k]? with
  | some b => .ok b
  | none => .error (.truncated k)

/-- The instruction at the front of a list of bytes and the bytes after it, or the reason there is
none (R84, R85). The machine's own decoder, `Machine.decodeAt`, is the same `decodeWith` over the
checked instruction-byte read of memory. -/
def decode (bytes : List Byte) : Except Reject (Instr × List Byte) :=
  match decodeWith .unknownOpcode (byteAt bytes) with
  | .error r => .error r
  | .ok i => .ok (i, bytes.drop i.len)

/-! ### The encoder -/

/-- `fld8(a..f) = 1..6` (R23, R88). -/
def fld8 : Reg8 → Field
  | .a => 1#3
  | .b => 2#3
  | .c => 3#3
  | .d => 4#3
  | .e => 5#3
  | .f => 6#3

/-- `fld32(la..pc) = 1..6` (R23, R88). -/
def fld32 : Reg32 → Field
  | .la => 1#3
  | .lb => 2#3
  | .lc => 3#3
  | .ld => 4#3
  | .ptr => 5#3
  | .pc => 6#3

/-- `fld((ptr+c)) = 7`, the memory operand (R25, R88). -/
def fldMem : Field := 7#3

/-- The opcode byte of a move: class bits, `dst << 3`, `src` (R88). -/
def moveOpcode (cls : Byte) (dst src : Field) : Byte :=
  cls ||| (dst.setWidth 8 <<< 3) ||| src.setWidth 8

/-- The four bytes of a 32-bit operand, lowest first (R74, R88). -/
def operandBytes (v : Word) : List Byte := [byteOf v 0, byteOf v 1, byteOf v 2, byteOf v 3]

/-- The encoding functions of R88. -/
def encode : Instr → List Byte
  | .halt => [0x01#8]
  | .out => [0x02#8]
  | .jez target => 0x21#8 :: operandBytes target
  | .jnz target => 0x22#8 :: operandBytes target
  | .cmp => [0xC1#8]
  | .add => [0xC2#8]
  | .sub => [0xC3#8]
  | .xor => [0xC4#8]
  | .aptr imm => [0xE1#8, imm]
  | .mv dst src => [moveOpcode 0x40#8 dst src]
  | .mvi dst imm => [moveOpcode 0x40#8 dst 0#3, imm]
  | .mv32 dst src => [moveOpcode 0x80#8 dst src]
  | .mvi32 dst imm => moveOpcode 0x80#8 dst 0#3 :: operandBytes imm

/-! ### The opcode table's numbering of an instruction's bits -/

/-- The first five bytes (the longest instruction, R10) of an instruction whose bits are `w`, bit 0
being bit 0 of the first byte; bits from `nbits` up are 0. -/
def tableBytes (nbits w : Nat) : List Byte :=
  let v := w % 2 ^ nbits
  [BitVec.ofNat 8 v, BitVec.ofNat 8 (v / 2 ^ 8), BitVec.ofNat 8 (v / 2 ^ 16),
    BitVec.ofNat 8 (v / 2 ^ 24), BitVec.ofNat 8 (v / 2 ^ 32)]

/-- What the decoder reads from an instruction whose bits are `w`, `none` where it refuses. -/
def decodeTableWord (nbits w : Nat) : Option Instr :=
  match decode (tableBytes nbits w) with
  | .error _ => none
  | .ok (i, _) => some i

end Sys2Proof
end

