-- ==== Sys2Proof/Config.lean ====
section
/-! DEFINITION. The implementation parameters of the core (spec/00_scope.md R11): their types, their
ranges and the values the spec takes by default. `MEM_LEN` is the length of the loaded input, so it
stands in the state's memory; the two open parameters are fixed at load and stand in the state too
(spec/10_state.md, opening list), so that no claim can lean on one value of them unless it says so. -/

namespace Sys2Proof.Config

/-- `APTR_OVERFLOW` (R11, D5): what APTR does when `ptr + imm8 >= 2^32`. -/
inductive AptrOverflow where
  | wrap | abort
  deriving DecidableEq, Repr

/-- The two open parameters of R11 other than the memory size. -/
structure Params where
  /-- `APTR_OVERFLOW` -/
  aptrOverflow : AptrOverflow
  /-- `OUT_CAP`: `none` is unbounded, `some n` is a capacity of `n` bytes (D10). -/
  outCap : Option Nat
  deriving DecidableEq, Repr

/-- The values R11 takes by default: `APTR_OVERFLOW = wrap`, `OUT_CAP = none`. -/
def defaultParams : Params := { aptrOverflow := .wrap, outCap := none }

/-- The largest `MEM_LEN` (R11, D3): `2^32 - 1`. -/
def maxMemLen : Nat := 0xFFFFFFFF

end Sys2Proof.Config
end

