-- ==== Sys2Proof/Machine/State.lean ====
section
/-! DEFINITION. The state of the core as one record of plain data (spec/10_state.md R47): the two
register files, the memory, the output buffer, the engine status and the parameters fixed at load.
The core has nothing else (R44). Also the reasons a step can stop. -/

namespace Sys2Proof.Machine

/-- The 8-bit register file (R20). -/
structure File8 where
  a : Byte
  b : Byte
  c : Byte
  d : Byte
  e : Byte
  f : Byte
  deriving DecidableEq, Repr

/-- The 32-bit register file (R22). -/
structure File32 where
  la : Word
  lb : Word
  lc : Word
  ld : Word
  ptr : Word
  pc : Word
  deriving DecidableEq, Repr

/-- The memory array `M` (R36): `len` is `MEM_LEN`, and `cells` lists the bytes that differ from what
an unlisted address reads as, in rising order of address (`Memory.wf` says the form). -/
structure Memory where
  len : Nat
  cells : List Host.Cell
  deriving DecidableEq, Repr

/-- The cause and the recorded information of an abort (R180, R181). The information is diagnostic
only (D9). -/
inductive Abort where
  /-- An opcode byte absent from the table: its address and its value. -/
  | decodeError (addr : Nat) (op : Byte)
  /-- A fetch or a data access at or beyond `MEM_LEN`: the failing address. -/
  | addressError (addr : Nat)
  /-- An invalid operand combination: the field value. No decoded instruction raises it (R26, C3, C4). -/
  | semanticError (field : Field)
  /-- APTR with `ptr + imm8 >= 2^32` under `APTR_OVERFLOW = abort`: `ptr` before the APTR. -/
  | aptrOverflow (ptr : Word)
  /-- OUT on a full buffer: the number of bytes it holds. -/
  | outputOverflow (size : Nat)
  deriving DecidableEq, Repr

/-- The engine status (R40). -/
inductive Status where
  | running
  | halted
  | aborted (reason : Abort)
  deriving DecidableEq, Repr

/-- The whole state (R47). -/
structure State where
  /-- `a, b, c, d, e, f` -/
  r8 : File8
  /-- `la, lb, lc, ld, ptr, pc` -/
  r32 : File32
  /-- `M` and `MEM_LEN` -/
  mem : Memory
  /-- the output buffer, oldest byte first (R38) -/
  out : List Byte
  /-- the engine status (R40) -/
  status : Status
  /-- `APTR_OVERFLOW` and `OUT_CAP` (R11) -/
  params : Config.Params
  deriving DecidableEq, Repr

/-- Why there is no step. An abort is no fault in this sense: the spec gives it a state (R182). -/
inductive Fault where
  /-- Raised by `step` when the status is Halted: the core takes no step (R41, D15). Safe: the core
  does nothing either. -/
  | noStepHalted
  /-- Raised by `step` when the status is Aborted: the core takes no step (R41, R183, D15). Safe: the
  core does nothing either. -/
  | noStepAborted (reason : Abort)
  deriving DecidableEq, Repr

/-- Inputs to which the spec gives no meaning. -/
inductive Refusal where
  /-- Raised by `exec` for an instruction that has no meaning yet; no arm raises it. Safe. -/
  | notModelled (mnemonic : String)
  /-- Raised by `load` while a run is in progress: LOAD is not accepted then (R210, D16). Safe. -/
  | loadWhileRunning
  /-- Raised by `load` for an input longer than `2^32 - 1` bytes: it is refused (R210, D3). Safe. -/
  | loadTooLong
  deriving DecidableEq, Repr

/-- The machine after the reset that LOAD performs (R45, R211), with nothing loaded: every register
0, the output empty, the status Running, the memory empty and the parameters at their defaults. -/
def State.reset : State where
  r8 := { a := 0#8, b := 0#8, c := 0#8, d := 0#8, e := 0#8, f := 0#8 }
  r32 := { la := 0#32, lb := 0#32, lc := 0#32, ld := 0#32, ptr := 0#32, pc := 0#32 }
  mem := { len := 0, cells := [] }
  out := []
  status := .running
  params := Config.defaultParams

end Sys2Proof.Machine
end

