-- ==== Sys2Proof/Machine/Ops.lean ====
section
/-! DEFINITION. The named operations over registers, memory and status: the register files' reads and
writes (spec/10_state.md R24), the memory controller's checked primitives (spec/20_memory.md R53 to
R55), the decoder over memory (spec/30_encoding.md R85), the output append and taking an abort
(spec/60_exceptions.md R182). The core has no handler and no return from an abort (R189); only the
LOAD of `Machine/HostInterface.lean` leaves Aborted. -/

namespace Sys2Proof.Machine

/-! ### Registers -/

/-- A read of the 8-bit file by name (R24). -/
def File8.get (file : File8) : Reg8 → Byte
  | .a => file.a
  | .b => file.b
  | .c => file.c
  | .d => file.d
  | .e => file.e
  | .f => file.f

/-- A write of the 8-bit file by name (R24). -/
def File8.set (file : File8) (r : Reg8) (v : Byte) : File8 :=
  match r with
  | .a => { file with a := v }
  | .b => { file with b := v }
  | .c => { file with c := v }
  | .d => { file with d := v }
  | .e => { file with e := v }
  | .f => { file with f := v }

/-- A read of the 32-bit file by name (R24). -/
def File32.get (file : File32) : Reg32 → Word
  | .la => file.la
  | .lb => file.lb
  | .lc => file.lc
  | .ld => file.ld
  | .ptr => file.ptr
  | .pc => file.pc

/-- A write of the 32-bit file by name (R24). -/
def File32.set (file : File32) (r : Reg32) (v : Word) : File32 :=
  match r with
  | .la => { file with la := v }
  | .lb => { file with lb := v }
  | .lc => { file with lc := v }
  | .ld => { file with ld := v }
  | .ptr => { file with ptr := v }
  | .pc => { file with pc := v }

/-- The value of an 8-bit register. -/
def State.x8 (s : State) (r : Reg8) : Byte := s.r8.get r

/-- The value of a 32-bit register. -/
def State.x32 (s : State) (r : Reg32) : Word := s.r32.get r

/-- `r <- v` for an 8-bit register (R14). -/
def State.setX8 (s : State) (r : Reg8) (v : Byte) : State := { s with r8 := s.r8.set r v }

/-- `r <- v` for a 32-bit register (R14). -/
def State.setX32 (s : State) (r : Reg32) (v : Word) : State := { s with r32 := s.r32.set r v }

/-- The state with another memory. -/
def State.setMem (s : State) (m : Memory) : State := { s with mem := m }

/-- The state with another status. -/
def State.setStatus (s : State) (st : Status) : State := { s with status := st }

/-- `out.append(v)` (R14, R38). -/
def State.appendOut (s : State) (v : Byte) : State := { s with out := s.out ++ [v] }

/-- `pc <- p + len` (R96). Under `Memory.wf` the sum never wraps after a decode (R33). -/
def State.advancePc (s : State) (n : Nat) : State := s.setX32 .pc (s.x32 .pc + BitVec.ofNat 32 n)

/-! ### Memory -/

/-- What an address below `MEM_LEN` that no cell lists reads as. LOAD gives every byte its value
(R211) and lists exactly the nonzero ones, so this is a way to write a memory down and fixes nothing
(assumption log 4). -/
def unlistedByte : Byte := 0#8

/-- The byte a list of cells holds at an address. -/
def cellsRead : List Host.Cell → Nat → Byte
  | [], _ => unlistedByte
  | (k, v) :: rest, addr => if k = addr then v else cellsRead rest addr

/-- `cells` in front of `rest`: the cell for `v` at `addr`, or none where `v` is the unlisted byte. -/
def consCell (addr : Nat) (v : Byte) (rest : List Host.Cell) : List Host.Cell :=
  if v = unlistedByte then rest else (addr, v) :: rest

/-- A list of cells in rising order with the byte at one address replaced. -/
def cellsWrite : List Host.Cell → Nat → Byte → List Host.Cell
  | [], addr, v => consCell addr v []
  | (k, w) :: rest, addr, v =>
    if addr < k then consCell addr v ((k, w) :: rest)
    else if addr = k then consCell addr v rest
    else (k, w) :: cellsWrite rest addr v

/-- The cells of a sequence of bytes that starts at address `base`. -/
def cellsOfBytes : Nat → List Byte → List Host.Cell
  | _, [] => []
  | base, b :: rest => consCell base b (cellsOfBytes (base + 1) rest)

/-- The canonical form: addresses strictly rising, no cell equal to what an unlisted address reads
as, every cell below `MEM_LEN`, and `MEM_LEN` in its range (R11, D3). Equal memories are then equal
data. -/
abbrev Memory.wf (m : Memory) : Prop :=
  m.cells.Pairwise (fun x y => x.1 < y.1) ∧
    (∀ x ∈ m.cells, x.2 ≠ unlistedByte ∧ x.1 < m.len) ∧ m.len ≤ Config.maxMemLen

/-- `M <- B` and `MEM_LEN <- |B|` (R211). -/
def Memory.ofBytes (bytes : List Byte) : Memory :=
  { len := bytes.length, cells := cellsOfBytes 0 bytes }

/-- `MemRead(addr, 1)` (R53). -/
def Memory.read (m : Memory) (addr : Nat) : Except Abort Byte :=
  if m.len ≤ addr then .error (.addressError addr) else .ok (cellsRead m.cells addr)

/-- `MemWrite(addr, 1, v)` (R54). -/
def Memory.write (m : Memory) (addr : Nat) (v : Byte) : Except Abort Memory :=
  if m.len ≤ addr then .error (.addressError addr)
  else .ok { m with cells := cellsWrite m.cells addr v }

/-- `Fetch(addr)`, the decoder's instruction-byte read (R55). -/
def Memory.fetch (m : Memory) (addr : Nat) : Except Abort Byte :=
  if m.len ≤ addr then .error (.addressError addr) else .ok (cellsRead m.cells addr)

/-- `decode(p)` over the current memory (R84, R85, R98). -/
def decodeAt (m : Memory) (p : Nat) : Except Abort Instr :=
  decodeWith (.decodeError p) (fun k => m.fetch (p + k))

/-! ### Taking an abort -/

/-- `raise Abort(cause, info)` (R182): the status becomes Aborted and nothing else changes. -/
def State.raise (s : State) (reason : Abort) : State := s.setStatus (.aborted reason)

/-- The end of an instruction's body that ran from `s`: the state it made, or the abort it raised
with none of its effect (R95, R184). -/
def finish (s : State) (result : Except Abort State) : Host.Outcome State Fault Refusal :=
  match result with
  | .ok t => .next t
  | .error reason => .next (s.raise reason)

end Sys2Proof.Machine
end

