-- ==== Sys2Proof/Machine/Operands.lean ====
section
/-! DEFINITION. The operand forms: the register field map (spec/10_state.md R23), the effective
address (spec/20_memory.md R50) and the operand reads and writes of the moves (spec/43_move.md R140,
R141). -/

namespace Sys2Proof.Machine

/-- The field map in an 8-bit context (R23): `none` for 0 and for the memory operand. -/
def reg8OfField (i : Field) : Option Reg8 :=
  match i.toNat with
  | 1 => some .a
  | 2 => some .b
  | 3 => some .c
  | 4 => some .d
  | 5 => some .e
  | 6 => some .f
  | _ => none

/-- The field map in a 32-bit context (R23). -/
def reg32OfField (i : Field) : Option Reg32 :=
  match i.toNat with
  | 1 => some .la
  | 2 => some .lb
  | 3 => some .lc
  | 4 => some .ld
  | 5 => some .ptr
  | 6 => some .pc
  | _ => none

/-- `EA = ptr + c`, the exact sum of naturals (R50, D6). -/
def State.ea (s : State) : Nat := (s.x32 .ptr).toNat + (s.x8 .c).toNat

/-- `read8(i)` (R140). -/
def read8 (i : Field) (s : State) : Except Abort Byte :=
  match reg8OfField i with
  | some r => .ok (s.x8 r)
  | none => if i = fldMem then s.mem.read s.ea else .error (.semanticError i)

/-- `read32(i)` (R140): it has no memory case. -/
def read32 (i : Field) (s : State) : Except Abort Word :=
  match reg32OfField i with
  | some r => .ok (s.x32 r)
  | none => .error (.semanticError i)

/-- The write of one byte to the memory operand (R54). -/
def writeMem (v : Byte) (s : State) : Except Abort State := (s.mem.write s.ea v).map s.setMem

/-- `write8(i, v)` (R141). -/
def write8 (i : Field) (v : Byte) (s : State) : Except Abort State :=
  match reg8OfField i with
  | some r => .ok (s.setX8 r v)
  | none => if i = fldMem then writeMem v s else .error (.semanticError i)

/-- `write32(i, v)` (R141): the memory operand takes the low byte `v[7:0]` only (R57, C6). -/
def write32 (i : Field) (v : Word) (s : State) : Except Abort State :=
  match reg32OfField i with
  | some r => .ok (s.setX32 r v)
  | none => if i = fldMem then writeMem (byteOf v 0) s else .error (.semanticError i)

/-- The two-operand moves refuse memory to memory: no opcode spells it (R81), and the source names
`SemanticError` for a term that does (R180, C4; assumption log 9). -/
def notMemToMem (dst src : Field) : Except Abort Unit :=
  if dst = fldMem ∧ src = fldMem then .error (.semanticError fldMem) else .ok ()

end Sys2Proof.Machine
end

