-- ==== Sys2Proof/Machine/Flags.lean ====
section
/-! DEFINITION. The one flag `f` (spec/10_state.md R34): what CMP writes to it and what the jumps test.
There is no carry, overflow, sign or zero flag (R35). -/

namespace Sys2Proof.Machine

/-- `1 if a != b else 0` (R103). -/
def cmpFlag (x y : Byte) : Byte := if x ≠ y then 1#8 else 0#8

/-- `f == 0`, the condition of JEZ; JNZ tests its negation (R34, R120, R121). -/
def State.flagZero (s : State) : Bool := s.x8 .f == 0#8

end Sys2Proof.Machine
end

