-- ==== Sys2Proof/Machine/Arith.lean ====
section
/-! DEFINITION. ADD, SUB, XOR, CMP and APTR (spec/40_arith.md). The `pc` has already been advanced when
a body runs (spec/30_encoding.md R95). -/

namespace Sys2Proof.Machine

/-- `a <- (a + b) mod 256` (R100). -/
def execAdd (s : State) : Host.Outcome State Fault Refusal :=
  .next (s.setX8 .a (s.x8 .a + s.x8 .b))

/-- `a <- (a - b + 256) mod 256` (R101). -/
def execSub (s : State) : Host.Outcome State Fault Refusal :=
  .next (s.setX8 .a (s.x8 .a - s.x8 .b))

/-- `a <- a xor b` (R102). -/
def execXor (s : State) : Host.Outcome State Fault Refusal :=
  .next (s.setX8 .a (s.x8 .a ^^^ s.x8 .b))

/-- `f <- (1 if a != b else 0)` (R103). -/
def execCmp (s : State) : Host.Outcome State Fault Refusal :=
  .next (s.setX8 .f (cmpFlag (s.x8 .a) (s.x8 .b)))

/-- `ptr` plus the unsigned immediate: the sum where it fits, else what `APTR_OVERFLOW` says (R104,
D4, D5). -/
def aptrSum (overflow : Config.AptrOverflow) (ptr : Word) (imm : Byte) : Except Abort Word :=
  if ptr.toNat + imm.toNat < 2 ^ 32 then .ok (BitVec.ofNat 32 (ptr.toNat + imm.toNat))
  else
    match overflow with
    | .wrap => .ok (BitVec.ofNat 32 ((ptr.toNat + imm.toNat) % 2 ^ 32))
    | .abort => .error (.aptrOverflow ptr)

/-- `APTR imm8` (R104). -/
def execAptr (imm : Byte) (s : State) : Host.Outcome State Fault Refusal :=
  finish s ((aptrSum s.params.aptrOverflow (s.x32 .ptr) imm).map (s.setX32 .ptr))

end Sys2Proof.Machine
end

