-- ==== Sys2Proof/Machine/Branch.lean ====
section
/-! DEFINITION. The conditional jumps JEZ and JNZ (spec/41_branch.md): absolute targets, no delay slot
(R122), no bounds check until the next fetch (R120). -/

namespace Sys2Proof.Machine

/-- `pc <- target` if the condition holds; otherwise `pc` keeps the advanced value (R120, R121). -/
def jumpIf (condition : Bool) (target : Word) (s : State) : Host.Outcome State Fault Refusal :=
  .next (if condition then s.setX32 .pc target else s)

/-- `JEZ target32` (R120). -/
def execJez (target : Word) (s : State) : Host.Outcome State Fault Refusal :=
  jumpIf s.flagZero target s

/-- `JNZ target32` (R121). -/
def execJnz (target : Word) (s : State) : Host.Outcome State Fault Refusal :=
  jumpIf (!s.flagZero) target s

end Sys2Proof.Machine
end

