-- ==== Sys2Proof/Machine/Halt.lean ====
section
/-! DEFINITION. HALT (spec/44_halt.md). -/

namespace Sys2Proof.Machine

/-- `status <- Halted` (R170); `pc` is already `p + 1` (R171). -/
def execHalt (s : State) : Host.Outcome State Fault Refusal := .next (s.setStatus .halted)

end Sys2Proof.Machine
end

