-- ==== Sys2Proof/Machine/Move.lean ====
section
/-! DEFINITION. MV, MVI, MV32 and MVI32 (spec/43_move.md). A source that is `pc` reads the advanced
value (R144). -/

namespace Sys2Proof.Machine

/-- `v <- read8(src); write8(dst, v)` (R142). -/
def move8 (dst src : Field) (s : State) : Except Abort State :=
  match notMemToMem dst src with
  | .error r => .error r
  | .ok () =>
    match read8 src s with
    | .error r => .error r
    | .ok v => write8 dst v s

/-- `v <- read32(src); write32(dst, v)` (R144). -/
def move32 (dst src : Field) (s : State) : Except Abort State :=
  match read32 src s with
  | .error r => .error r
  | .ok v => write32 dst v s

/-- `MV dst, src` (R142). -/
def execMv (dst src : Field) (s : State) : Host.Outcome State Fault Refusal :=
  finish s (move8 dst src s)

/-- `MVI dst, imm8` (R146). -/
def execMvi (dst : Field) (imm : Byte) (s : State) : Host.Outcome State Fault Refusal :=
  finish s (write8 dst imm s)

/-- `MV32 dst, src` (R144). -/
def execMv32 (dst src : Field) (s : State) : Host.Outcome State Fault Refusal :=
  finish s (move32 dst src s)

/-- `MVI32 dst, imm32` (R147). -/
def execMvi32 (dst : Field) (imm : Word) (s : State) : Host.Outcome State Fault Refusal :=
  finish s (write32 dst imm s)

end Sys2Proof.Machine
end

