-- ==== Sys2Proof/Machine/Output.lean ====
section
/-! DEFINITION. OUT (spec/42_output.md). -/

namespace Sys2Proof.Machine

/-- `OUT_CAP != none and |out| == OUT_CAP` (R130). -/
def outFull (s : State) : Bool := s.params.outCap == some s.out.length

/-- `OUT` (R130): append `a`, or abort on a full buffer. -/
def execOut (s : State) : Host.Outcome State Fault Refusal :=
  finish s
    (if outFull s then .error (.outputOverflow s.out.length) else .ok (s.appendOut (s.x8 .a)))

end Sys2Proof.Machine
end

