-- ==== Sys2Proof/Machine/Dispatch.lean ====
section
/-! DEFINITION. `execute(I)` (spec/30_encoding.md R95): one arm per instruction. -/

namespace Sys2Proof.Machine

/-- The body of an instruction, on a state whose `pc` has been advanced past it. -/
def exec (i : Instr) (s : State) : Host.Outcome State Fault Refusal :=
  match i with
  | .halt => Sys2Proof.Machine.execHalt s
  | .out => Sys2Proof.Machine.execOut s
  | .jez target => Sys2Proof.Machine.execJez target s
  | .jnz target => Sys2Proof.Machine.execJnz target s
  | .cmp => Sys2Proof.Machine.execCmp s
  | .add => Sys2Proof.Machine.execAdd s
  | .sub => Sys2Proof.Machine.execSub s
  | .xor => Sys2Proof.Machine.execXor s
  | .aptr imm => Sys2Proof.Machine.execAptr imm s
  | .mv dst src => Sys2Proof.Machine.execMv dst src s
  | .mvi dst imm => Sys2Proof.Machine.execMvi dst imm s
  | .mv32 dst src => Sys2Proof.Machine.execMv32 dst src s
  | .mvi32 dst imm => Sys2Proof.Machine.execMvi32 dst imm s

end Sys2Proof.Machine
end

