-- ==== Sys2Proof/Machine/Fetch.lean ====
section
/-! DEFINITION. The decode stage of a step (spec/30_encoding.md R95), and laying bytes out in memory
where the next fetch reads them. -/

namespace Sys2Proof.Machine

/-- `I <- decode(pc)`, always from the current memory (R95, R98). -/
def fetchInstr (s : State) : Except Abort Instr := decodeAt s.mem (s.x32 .pc).toNat

/-- Cells with a sequence of bytes written at `base`. -/
def cellsWriteBytes : List Host.Cell → Nat → List Byte → List Host.Cell
  | cells, _, [] => cells
  | cells, base, b :: rest => cellsWriteBytes (cellsWrite cells base b) (base + 1) rest

/-- A memory with a sequence of bytes at `base`, lengthened where they reach past its end. -/
def Memory.overlay (m : Memory) (base : Nat) (bytes : List Byte) : Memory :=
  { len := max m.len (base + bytes.length), cells := cellsWriteBytes m.cells base bytes }

end Sys2Proof.Machine
end

