-- ==== Sys2Proof/Machine/Step.lean ====
section
/-! DEFINITION. One step of the engine (spec/30_encoding.md R95): decode at `pc`, advance `pc`, execute.
A `raise` in decode leaves the `pc` where it was and sets the status to Aborted (R183, R184). -/

namespace Sys2Proof.Machine

/-- `step()` (R95). Halted and Aborted have no step (R41, D15). -/
def step (s : State) : Host.Outcome State Fault Refusal :=
  match s.status with
  | .halted => .fault .noStepHalted
  | .aborted reason => .fault (.noStepAborted reason)
  | .running =>
    match fetchInstr s with
    | .error reason => .next (s.raise reason)
    | .ok i => exec i (s.advancePc i.len)

/-- The state whose next step fetches the instruction whose bits are `w` (numbered as the opcode
table numbers them): its bytes, followed by zeros up to the longest instruction, stand at `pc`,
`MEM_LEN` covers them, and the status is Running. It stands for the LOAD of a program that holds
those bytes there (R210; assumption log 2). -/
def State.withFetchWord (s : State) (nbits w : Nat) : State :=
  (s.setMem (s.mem.overlay (s.x32 .pc).toNat (tableBytes nbits w))).setStatus .running

end Sys2Proof.Machine
end

