-- ==== Sys2Proof/Machine/HostInterface.lean ====
section
/-! DEFINITION. The block's interface (spec/70_reset_and_hazards.md R210 to R215): LOAD and READOUT. RUN
is `step` while the status is Running (R213). During a run the host does nothing (R215), so these
are no part of `step`. -/

namespace Sys2Proof.Machine

/-- The reset that LOAD performs (R211): memory verbatim, every register 0, the output empty, the
status Running. The open parameters are fixed here (R11). -/
def loadState (params : Config.Params) (bytes : List Byte) : State :=
  { State.reset with mem := Memory.ofBytes bytes, params := params }

/-- LOAD before the first run (R210): refused only for an input longer than `2^32 - 1` (D3). -/
def firstLoad (params : Config.Params) (bytes : List Byte) : Host.Outcome State Fault Refusal :=
  if Config.maxMemLen < bytes.length then .refused .loadTooLong
  else .next (loadState params bytes)

/-- LOAD (R210, D16): accepted only when no run is in progress, and nothing of the earlier run is
kept. -/
def load (params : Config.Params) (bytes : List Byte) (s : State) :
    Host.Outcome State Fault Refusal :=
  match s.status with
  | .running => .refused .loadWhileRunning
  | .halted => firstLoad params bytes
  | .aborted _ => firstLoad params bytes

/-- What the host can read (R214): the status with the abort's cause and information, and the output
buffer. Registers and memory are not on the interface. -/
structure Readout where
  status : Status
  out : List Byte
  deriving DecidableEq, Repr

/-- READOUT (R214). -/
def State.readout (s : State) : Readout := { status := s.status, out := s.out }

/-- The stage's result: the output at Halted, and nothing otherwise (R19, R131, R185). -/
def State.result (s : State) : Option (List Byte) :=
  match s.status with
  | .halted => some s.out
  | .running => none
  | .aborted _ => none

end Sys2Proof.Machine
end

