-- ==== Sys2Proof/Safety.lean ====
section
/-! DEFINITION. The terms claims use: the state invariant, runs, and how a run can end. -/

namespace Sys2Proof.Machine

/-- The invariant of the model: the memory keeps its canonical form within the address range of D3,
and the output buffer holds at most its capacity (R38, D10). -/
abbrev State.Inv (s : State) : Prop :=
  s.mem.wf ∧ ∀ cap ∈ s.params.outCap, s.out.length ≤ cap

/-- `t` follows from `s` by some number of steps (R17, R97). -/
inductive Reaches : State → State → Prop where
  | refl (s : State) : Reaches s s
  | tail {s t u : State} : Reaches s t → step t = .next u → Reaches s u

/-- The run from `s` ends at Halted with the result `bytes` (R19). -/
def HaltsWith (s : State) (bytes : List Byte) : Prop :=
  ∃ t, Reaches s t ∧ t.result = some bytes

/-- The run from `s` ends at Aborted with the given reason. -/
def AbortsWith (s : State) (reason : Abort) : Prop :=
  ∃ t, Reaches s t ∧ t.status = .aborted reason

/-- No state of the run from `s` is Aborted: what a safe run is. It may halt or never end (R198). -/
def SafeRun (s : State) : Prop := ∀ t, Reaches s t → ∀ reason, t.status ≠ .aborted reason

/-! ### Frames -/

/-- Every 8-bit register but those in `rs` is unchanged. -/
def Same8But (rs : List Reg8) (s t : State) : Prop := ∀ r, r ∉ rs → t.x8 r = s.x8 r

/-- Every 32-bit register but those in `rs` is unchanged. -/
def Same32But (rs : List Reg32) (s t : State) : Prop := ∀ r, r ∉ rs → t.x32 r = s.x32 r

/-- `MEM_LEN` and every byte of memory are the same, read one byte at a time. -/
def SameMemory (s t : State) : Prop :=
  t.mem.len = s.mem.len ∧ ∀ addr, t.mem.read addr = s.mem.read addr

/-- `MEM_LEN` and every byte of memory but the one at `k` are the same. -/
def SameMemoryBut (k : Nat) (s t : State) : Prop :=
  t.mem.len = s.mem.len ∧ ∀ addr, addr ≠ k → t.mem.read addr = s.mem.read addr

/-- The output buffer, the status and the parameters are the same. -/
def SameRest (s t : State) : Prop := t.out = s.out ∧ t.status = s.status ∧ t.params = s.params

/-- Nothing but the listed registers may differ. -/
def UnchangedBut (rs8 : List Reg8) (rs32 : List Reg32) (s t : State) : Prop :=
  Same8But rs8 s t ∧ Same32But rs32 s t ∧ SameMemory s t ∧ SameRest s t

/-- The byte at `k` is now `v`, and nothing else differs. -/
def StoresByte (k : Nat) (v : Byte) (s t : State) : Prop :=
  Same8But [] s t ∧ Same32But [] s t ∧ t.mem.read k = .ok v ∧ SameMemoryBut k s t ∧ SameRest s t

/-- `t` is Aborted for `reason`, with the output of `s` (R184, R185). The registers and the memory of
an Aborted state are no part of the observation, so this does not read them. -/
def AbortedFrom (reason : Abort) (s t : State) : Prop :=
  t.status = .aborted reason ∧ t.out = s.out

end Sys2Proof.Machine
end

