-- ==== Sys2Proof/Certificates/Slice0/Obligations.lean ====
section
/-! DEFINITION. The statements for the provers. Each formalises the rule of spec/ its docstring names.
An instruction's statement is about its body, which runs on a state whose `pc` has already been
advanced (spec/30_encoding.md R95); `StepRunsTheDecodedInstruction` joins bodies to steps. No
statement reads the registers or the memory of an Aborted state (spec/60_exceptions.md R184); the
invariant and the size of memory alone are stated of every state a step gives. -/

open Sys2Proof Sys2Proof.Machine

/-! ### Load and reset -/

/-- R45, R211: what a load leaves. -/
def Obligations.LoadLeavesTheStatedResetValues : Prop :=
  ∀ (params : Config.Params) (bytes : List Byte) (s : State), s = loadState params bytes →
    (∀ r, s.x8 r = 0#8) ∧ (∀ r, s.x32 r = 0#32) ∧ s.mem.len = bytes.length ∧
      (∀ k b, bytes[k]? = some b → s.mem.read k = .ok b) ∧ s.out = [] ∧ s.status = .running ∧
      s.params = params

/-- R210 (D3, D16): when a load is accepted, that it performs the reset of R211 whatever the state
before it, and when it is refused. -/
def Obligations.LoadIsAcceptedOnlyWithNoRunInProgress : Prop :=
  ∀ (params : Config.Params) (bytes : List Byte) (s : State),
    (s.status = .running → load params bytes s = .refused .loadWhileRunning) ∧
    (s.status ≠ .running → bytes.length ≤ 0xFFFFFFFF →
      load params bytes s = .next (loadState params bytes)) ∧
    (s.status ≠ .running → 0xFFFFFFFF < bytes.length →
      load params bytes s = .refused .loadTooLong) ∧
    (bytes.length ≤ 0xFFFFFFFF → firstLoad params bytes = .next (loadState params bytes)) ∧
    (0xFFFFFFFF < bytes.length → firstLoad params bytes = .refused .loadTooLong)

/-- The invariant holds at reset and after every load the core accepts (R38, R210, D3). That reset is
the load of no bytes at the default parameters is the model's choice (assumption log 2). -/
def Obligations.InvariantHoldsAtResetAndAfterLoad : Prop :=
  State.reset.Inv ∧ State.reset = loadState Config.defaultParams [] ∧
    ∀ (params : Config.Params) (bytes : List Byte) (s : State),
      firstLoad params bytes = .next s → s.Inv

/-- The memory keeps its canonical form below `MEM_LEN` and `MEM_LEN` its range (R36, R37, D3; the
form is the model's, assumption log 4), and the output buffer never exceeds its capacity (R38,
R130): every step from a state that meets this gives one that does. -/
def Obligations.EveryStepKeepsTheInvariant : Prop :=
  ∀ s t : State, s.Inv → step s = .next t → t.Inv

/-! ### Encoding -/

/-- Decode and encode agree on every instruction the table spells, at every operand (R78, R88). -/
def Obligations.DecodeOfEncodeIsTheInstruction : Prop :=
  ∀ (i : Instr) (rest : List Byte), i.wf = true → decode (encode i ++ rest) = .ok (i, rest)

/-- Whatever decodes is an instruction the table spells, and its encoding is the bytes it was read
from: no two spellings of one instruction, no bit of the bytes dropped (R78, R82, R88). -/
def Obligations.EncodeOfDecodeIsTheBytes : Prop :=
  ∀ (bytes : List Byte) (i : Instr) (rest : List Byte), decode bytes = .ok (i, rest) → i.wf = true ∧ encode i ++ rest = bytes

/-- The words of the spec's own encodings (R88, spec/95_test_vectors.md 2.1), one or more for each
family. -/
def Obligations.WordsOfTheSpecDecode : Prop :=
  decode [0x48#8, 0x41#8] = .ok (.mvi 1#3 65#8, []) ∧
  decode [0x62#8] = .ok (.mv 4#3 2#3, []) ∧
  decode [0x5F#8, 0xAA#8] = .ok (.mv 3#3 7#3, [0xAA#8]) ∧
  decode [0x88#8, 0x44#8, 0x33#8, 0x22#8, 0x11#8] = .ok (.mvi32 1#3 0x11223344#32, []) ∧
  decode [0xBE#8] = .ok (.mv32 7#3 6#3, []) ∧
  decode [0xE1#8, 0x04#8] = .ok (.aptr 4#8, []) ∧
  decode [0x21#8, 0x10#8, 0x00#8, 0x00#8, 0x00#8] = .ok (.jez 0x10#32, []) ∧
  decode [0x22#8, 0x04#8, 0x00#8, 0x00#8, 0x00#8] = .ok (.jnz 4#32, []) ∧
  decode [0xC2#8] = .ok (.add, []) ∧ decode [0x02#8] = .ok (.out, []) ∧
  decode [0x01#8] = .ok (.halt, []) ∧
  decode [0x7F#8] = .error (.unknownOpcode 0x7F#8) ∧
  decode [0x8F#8] = .error (.unknownOpcode 0x8F#8) ∧
  decode [0x22#8, 0x04#8] = .error (.truncated 2)

/-- The source's opcode table by byte ranges, with its length table (R70, R77, C1): the rows as
printed, the MV32 row without the values of the MVI32 row. -/
def sourceTable (op : Nat) : Option (Mnemonic × Nat) :=
  if op = 0x01 then some (.halt, 1)
  else if op = 0x02 then some (.out, 1)
  else if op = 0x21 then some (.jez, 5)
  else if op = 0x22 then some (.jnz, 5)
  else if op = 0xC1 then some (.cmp, 1)
  else if op = 0xC2 then some (.add, 1)
  else if op = 0xC3 then some (.sub, 1)
  else if op = 0xC4 then some (.xor, 1)
  else if op = 0xE1 then some (.aptr, 2)
  else if 0x48 ≤ op ∧ op ≤ 0x78 ∧ op % 8 = 0 then some (.mvi, 2)
  else if 0x49 ≤ op ∧ op ≤ 0x7E then some (.mv, 1)
  else if 0x88 ≤ op ∧ op ≤ 0xB8 ∧ op % 8 = 0 then some (.mvi32, 5)
  else if 0x89 ≤ op ∧ op ≤ 0xBE ∧ op % 8 ≠ 7 then some (.mv32, 1)
  else none

/-- R77, R86: the decoder's field conditions give every opcode byte the mnemonic and the length of
the source's table, and no other byte any. -/
def Obligations.DecoderAgreesWithTheSourceTable : Prop :=
  ∀ op : Byte, (mnemonicOf op).map (fun mn => (mn, mn.len)) = sourceTable op.toNat

/-- The 143 invalid opcode bytes as R80 lists them. -/
def invalidOpcode (op : Nat) : Prop :=
  op = 0x00 ∨ 0x03 ≤ op ∧ op ≤ 0x20 ∨ 0x23 ≤ op ∧ op ≤ 0x47 ∨ 0x7F ≤ op ∧ op ≤ 0x87 ∨ op = 0x8F ∨
    op = 0x97 ∨ op = 0x9F ∨ op = 0xA7 ∨ op = 0xAF ∨ op = 0xB7 ∨ 0xBF ≤ op ∧ op ≤ 0xC0 ∨
    0xC5 ≤ op ∧ op ≤ 0xE0 ∨ 0xE2 ≤ op ∧ op ≤ 0xFF

/-- R80: an opcode byte aborts with DecodeError, recording where and what it is, exactly when it is
one of the listed bytes. The class of the bytes of R81 rests on C2 to C4. -/
def Obligations.InvalidOpcodesRaiseDecodeError : Prop :=
  ∀ (m : Memory) (p : Nat) (op : Byte), m.fetch p = .ok op →
    (invalidOpcode op.toNat ↔ decodeAt m p = .error (.decodeError p op))

/-- R74: the operand of JEZ, JNZ and MVI32 is the four bytes after the opcode, unsigned and
little-endian, not scaled and not extended. -/
def Obligations.FourByteOperandsAreLittleEndian : Prop :=
  ∀ (m : Memory) (p : Nat) (op b0 b1 b2 b3 : Byte), m.fetch p = .ok op →
    m.fetch (p + 1) = .ok b0 → m.fetch (p + 2) = .ok b1 → m.fetch (p + 3) = .ok b2 →
    m.fetch (p + 4) = .ok b3 →
    ∃ v : Word, v.toNat = b0.toNat + 2 ^ 8 * b1.toNat + 2 ^ 16 * b2.toNat + 2 ^ 24 * b3.toNat ∧
      (op = 0x21#8 → decodeAt m p = .ok (.jez v)) ∧
      (op = 0x22#8 → decodeAt m p = .ok (.jnz v)) ∧
      (mnemonicOf op = some .mvi32 → decodeAt m p = .ok (.mvi32 (dstField op) v))

/-- R84: the decoder reads no byte but the instruction's own. A memory that agrees on those bytes
decodes the same. -/
def Obligations.DecodeDependsOnlyOnTheInstructionBytes : Prop :=
  ∀ (m m' : Memory) (p : Nat) (i : Instr), decodeAt m p = .ok i →
    (∀ k, k < i.len → m'.fetch (p + k) = m.fetch (p + k)) →
    decodeAt m' p = .ok i

/-! ### The step -/

/-- R95, R96: when the bytes at `pc` are the encoding of an instruction, the step is that
instruction's body, run on the state whose `pc` alone has been advanced by the instruction's
length, with no wrap. -/
def Obligations.StepRunsTheDecodedInstruction : Prop :=
  ∀ (s : State) (i : Instr), s.status = .running → s.mem.wf → i.wf = true →
    (∀ k b, (encode i)[k]? = some b → s.mem.fetch ((s.x32 .pc).toNat + k) = .ok b) →
    ∃ s', step s = exec i s' ∧ (s'.x32 .pc).toNat = (s.x32 .pc).toNat + i.len ∧
      UnchangedBut [] [.pc] s s'

/-- The same from the decoder's answer: when the bytes at `pc` decode, the step is `exec` of what they
decode to, after the advance of `pc`, and nothing else is added (R95, R98). -/
def Obligations.StepIsExecOfWhatIsDecoded : Prop :=
  ∀ (s : State) (i : Instr), s.status = .running →
    decodeAt s.mem (s.x32 .pc).toNat = .ok i →
    i.wf = true ∧ step s = exec i (s.setX32 .pc (s.x32 .pc + BitVec.ofNat 32 i.len))

/-- R33: after a decode every byte of the instruction lies below `MEM_LEN`, so the advance of `pc`
never wraps. -/
def Obligations.PcAdvanceNeverWraps : Prop :=
  ∀ (s : State) (i : Instr), s.mem.wf → decodeAt s.mem (s.x32 .pc).toNat = .ok i →
    (s.x32 .pc).toNat + i.len ≤ s.mem.len ∧
      ((s.advancePc i.len).x32 .pc).toNat = (s.x32 .pc).toNat + i.len

/-- R85, R186: the opcode's bound, then the table, then the operand bytes, then the body; the first
check that fails decides. -/
def Obligations.DecodeChecksRunInTheStatedOrder : Prop :=
  ∀ (s : State) (p : Nat), s.status = .running → p = (s.x32 .pc).toNat →
    (s.mem.len ≤ p → ∃ t, step s = .next t ∧ AbortedFrom (.addressError p) s t) ∧
    (∀ op, s.mem.fetch p = .ok op → mnemonicOf op = none →
      ∃ t, step s = .next t ∧ AbortedFrom (.decodeError p op) s t) ∧
    (∀ op mn, s.mem.fetch p = .ok op → mnemonicOf op = some mn → s.mem.len < p + mn.len →
      ∃ t, step s = .next t ∧ AbortedFrom (.addressError s.mem.len) s t) ∧
    (∀ op mn, s.mem.fetch p = .ok op → mnemonicOf op = some mn → p + mn.len ≤ s.mem.len →
      ∃ i, i.mnemonic = mn ∧ step s = exec i (s.advancePc mn.len))

/-- R41: the status transitions. -/
def Obligations.StatusMovesOnlyAsStated : Prop :=
  (∀ s t : State, step s = .next t →
    s.status = .running ∧
      (t.status = .halted ↔ decodeAt s.mem (s.x32 .pc).toNat = .ok .halt) ∧
      (∀ reason, decodeAt s.mem (s.x32 .pc).toNat = .error reason → t.status = .aborted reason) ∧
      ∀ reason, t.status = .aborted reason →
        decodeAt s.mem (s.x32 .pc).toNat = .error reason ∨
          ∃ i, decodeAt s.mem (s.x32 .pc).toNat = .ok i ∧ exec i (s.advancePc i.len) = .next t) ∧
  (∀ s : State, s.status = .halted → step s = .fault .noStepHalted) ∧
  (∀ (s : State) (reason : Abort), s.status = .aborted reason →
    step s = .fault (.noStepAborted reason)) ∧
  ∀ (params : Config.Params) (bytes : List Byte) (s t : State),
    load params bytes s = .next t → s.status ≠ .running ∧ t.status = .running

/-- R99: a Running state has a next one, whatever its registers and memory hold: the step neither
faults nor refuses. -/
def Obligations.RunningStepAlwaysAnswers : Prop :=
  ∀ s : State, s.status = .running → ∃ t, step s = .next t

/-- `addr` is a byte of the instruction at `p` that decode fetches: the opcode, or one of the operand
bytes its length gives it. -/
def IsInstructionByte (m : Memory) (p addr : Nat) : Prop :=
  addr = p ∨ ∃ op mn k, m.fetch p = .ok op ∧ mnemonicOf op = some mn ∧ k < mn.len ∧ addr = p + k

/-- R180, R181: every cause, exactly when and by whom it is raised, and what it records. Decode raises
DecodeError, and AddressError at a byte of the instruction; a move with a memory operand raises
AddressError at the effective address; no step raises SemanticError. Under the default parameters
only the first two can occur. The recorded information is diagnostic (D9). -/
def Obligations.AbortCausesAreRaisedOnlyAsListed : Prop :=
  ∀ (s t : State) (p : Nat), p = (s.x32 .pc).toNat → step s = .next t →
    (∀ addr op, t.status = .aborted (.decodeError addr op) ↔
      decodeAt s.mem p = .error (.decodeError p op) ∧
        addr = p ∧ s.mem.fetch p = .ok op ∧ mnemonicOf op = none) ∧
    (∀ addr, t.status = .aborted (.addressError addr) ↔
      s.mem.len ≤ addr ∧
        (decodeAt s.mem p = .error (.addressError addr) ∧ IsInstructionByte s.mem p addr ∨
          addr = s.ea ∧ ∃ i, decodeAt s.mem p = .ok i ∧
            ((∃ src, i = .mv 7#3 src) ∨ (∃ dst, i = .mv dst 7#3) ∨ (∃ imm, i = .mvi 7#3 imm) ∨
              (∃ src, i = .mv32 7#3 src) ∨ ∃ imm, i = .mvi32 7#3 imm))) ∧
    (∀ field, t.status ≠ .aborted (.semanticError field)) ∧
    (∀ v, t.status = .aborted (.aptrOverflow v) ↔
      s.params.aptrOverflow = .abort ∧ v = s.x32 .ptr ∧
        ∃ imm : Byte, decodeAt s.mem p = .ok (.aptr imm) ∧ 2 ^ 32 ≤ v.toNat + imm.toNat) ∧
    (∀ n, t.status = .aborted (.outputOverflow n) ↔
      s.params.outCap = some n ∧ n = s.out.length ∧ decodeAt s.mem p = .ok .out) ∧
    (s.params = Config.defaultParams → ∀ reason, t.status = .aborted reason →
      (∃ addr op, reason = .decodeError addr op) ∨ ∃ addr, reason = .addressError addr)

/-- R183: Aborted is terminal. No run leaves it, it keeps its output, and a new load leaves it. -/
def Obligations.AbortedIsTerminal : Prop :=
  ∀ (s : State) (reason : Abort), s.status = .aborted reason →
    (∀ t, Reaches s t → t = s) ∧
      ∀ (params : Config.Params) (bytes : List Byte), bytes.length ≤ 0xFFFFFFFF →
        load params bytes s = .next (loadState params bytes)

/-- R132: the step that aborts appends no byte, and none follows. -/
def Obligations.NoOutputAfterAnAbort : Prop :=
  ∀ (s t u : State) (reason : Abort), step s = .next t → t.status = .aborted reason → Reaches t u → u.out = s.out

/-! ### Arithmetic, logic, compare and pointer adjust -/

/-- R100. -/
def Obligations.AddWritesTheSumModulo256 : Prop :=
  encode .add = [0xC2#8] ∧
  ∀ s : State, ∃ t, exec .add s = .next t ∧
    (t.x8 .a).toNat = ((s.x8 .a).toNat + (s.x8 .b).toNat) % 256 ∧ UnchangedBut [.a] [] s t

/-- R101. -/
def Obligations.SubWritesTheDifferenceModulo256 : Prop :=
  encode .sub = [0xC3#8] ∧
  ∀ s : State, ∃ t, exec .sub s = .next t ∧
    (t.x8 .a).toNat = ((s.x8 .a).toNat + 256 - (s.x8 .b).toNat) % 256 ∧ UnchangedBut [.a] [] s t

/-- R102. -/
def Obligations.XorWritesTheExclusiveOr : Prop :=
  encode .xor = [0xC4#8] ∧
  ∀ s : State, ∃ t, exec .xor s = .next t ∧
    (∀ k, k < 8 → (t.x8 .a).getLsbD k = ((s.x8 .a).getLsbD k != (s.x8 .b).getLsbD k)) ∧
    UnchangedBut [.a] [] s t

/-- R103. -/
def Obligations.CmpWritesInequalityToTheFlag : Prop :=
  encode .cmp = [0xC1#8] ∧
  ∀ s : State, ∃ t, exec .cmp s = .next t ∧
    (s.x8 .a = s.x8 .b → t.x8 .f = 0#8) ∧ (s.x8 .a ≠ s.x8 .b → t.x8 .f = 1#8) ∧
    UnchangedBut [.f] [] s t

/-- R104 (D4, D5), for both values of `APTR_OVERFLOW`. -/
def Obligations.AptrAddsTheUnsignedImmediate : Prop :=
  ∀ (imm : Byte) (s : State), encode (.aptr imm) = [0xE1#8, imm] ∧
    ((s.x32 .ptr).toNat + imm.toNat < 2 ^ 32 →
      ∃ t, exec (.aptr imm) s = .next t ∧
        (t.x32 .ptr).toNat = (s.x32 .ptr).toNat + imm.toNat ∧ UnchangedBut [] [.ptr] s t) ∧
    (2 ^ 32 ≤ (s.x32 .ptr).toNat + imm.toNat → s.params.aptrOverflow = .wrap →
      ∃ t, exec (.aptr imm) s = .next t ∧
        (t.x32 .ptr).toNat = ((s.x32 .ptr).toNat + imm.toNat) % 2 ^ 32 ∧
        UnchangedBut [] [.ptr] s t) ∧
    (2 ^ 32 ≤ (s.x32 .ptr).toNat + imm.toNat → s.params.aptrOverflow = .abort →
      ∃ t, exec (.aptr imm) s = .next t ∧ AbortedFrom (.aptrOverflow (s.x32 .ptr)) s t)

/-! ### Jumps -/

/-- What a jump to `target` leaves: `pc` holds it whatever it is, and only the next fetch checks it. -/
def JumpsTo (target : Word) (s t : State) : Prop :=
  t.x32 .pc = target ∧ UnchangedBut [] [.pc] s t ∧
    (s.status = .running → s.mem.len ≤ target.toNat →
      ∃ u, step t = .next u ∧ AbortedFrom (.addressError target.toNat) s u)

/-- R120. The `pc` of a jump not taken is the advanced one the body started with. -/
def Obligations.JezJumpsWhenTheFlagIsZero : Prop :=
  ∀ (target : Word) (s : State),
    encode (.jez target) =
      [0x21#8, byteOf target 0, byteOf target 1, byteOf target 2, byteOf target 3] ∧
    (s.x8 .f = 0#8 → ∃ t, exec (.jez target) s = .next t ∧ JumpsTo target s t) ∧
    (s.x8 .f ≠ 0#8 → ∃ t, exec (.jez target) s = .next t ∧ UnchangedBut [] [] s t)

/-- R121. -/
def Obligations.JnzJumpsWhenTheFlagIsNotZero : Prop :=
  ∀ (target : Word) (s : State),
    encode (.jnz target) =
      [0x22#8, byteOf target 0, byteOf target 1, byteOf target 2, byteOf target 3] ∧
    (s.x8 .f ≠ 0#8 → ∃ t, exec (.jnz target) s = .next t ∧ JumpsTo target s t) ∧
    (s.x8 .f = 0#8 → ∃ t, exec (.jnz target) s = .next t ∧ UnchangedBut [] [] s t)

/-- R122: besides a taken JEZ or JNZ, only MV32 and MVI32 with destination `pc` move `pc` anywhere but
to the next instruction, in a step whose body does not abort. -/
def Obligations.OnlyJumpsAndPcMovesTransferControl : Prop :=
  ∀ (s t : State) (i : Instr), decodeAt s.mem (s.x32 .pc).toNat = .ok i → step s = .next t →
    (∀ reason, t.status ≠ .aborted reason) →
    t.x32 .pc ≠ (s.advancePc i.len).x32 .pc →
    (∃ target, i = .jez target ∧ s.x8 .f = 0#8 ∧ t.x32 .pc = target) ∨
      (∃ target, i = .jnz target ∧ s.x8 .f ≠ 0#8 ∧ t.x32 .pc = target) ∨
      (∃ src, i = .mv32 6#3 src) ∨ ∃ target, i = .mvi32 6#3 target ∧ t.x32 .pc = target

/-- R198: JNZ to itself with `f != 0` runs for ever. -/
def Obligations.JnzToItselfNeverEnds : Prop :=
  ∀ s : State, s.status = .running → s.x8 .f ≠ 0#8 →
    decodeAt s.mem (s.x32 .pc).toNat = .ok (.jnz (s.x32 .pc)) →
    ∀ k, Host.Core.run core k s = .next s

/-! ### Output and halt -/

/-- R130 (D10), for every capacity. -/
def Obligations.OutAppendsTheAccumulator : Prop :=
  encode .out = [0x02#8] ∧
  ∀ s : State,
    (s.params.outCap ≠ some s.out.length →
      ∃ t, exec .out s = .next t ∧ t.out = s.out ++ [s.x8 .a] ∧ Same8But [] s t ∧
        Same32But [] s t ∧ SameMemory s t ∧ t.status = s.status ∧ t.params = s.params) ∧
    (s.params.outCap = some s.out.length →
      ∃ t, exec .out s = .next t ∧ AbortedFrom (.outputOverflow s.out.length) s t)

/-- R170, R171: HALT sets the status and nothing else; at a step `pc` ends at `p + 1` and no step
follows. -/
def Obligations.HaltStopsTheEngine : Prop :=
  encode .halt = [0x01#8] ∧
  (∀ s : State, ∃ t, exec .halt s = .next t ∧ t.status = .halted ∧ Same8But [] s t ∧ Same32But [] s t ∧
    SameMemory s t ∧ t.out = s.out ∧ t.params = s.params) ∧
  ∀ s : State, s.status = .running → s.mem.wf → s.mem.fetch (s.x32 .pc).toNat = .ok 0x01#8 →
    ∃ t, step s = .next t ∧ t.status = .halted ∧
      (t.x32 .pc).toNat = (s.x32 .pc).toNat + 1 ∧ t.out = s.out ∧ step t = .fault .noStepHalted

/-- R19, R131: only Halted yields a result, which is the output buffer. -/
def Obligations.OnlyHaltedYieldsAResult : Prop :=
  ∀ (s : State) (bytes : List Byte), s.result = some bytes ↔ s.status = .halted ∧ bytes = s.out

/-- R38: the output buffer grows only by OUT, by one byte, the accumulator. -/
def Obligations.OnlyOutGrowsTheOutput : Prop :=
  ∀ s t : State, step s = .next t →
    t.out = s.out ∨
      decodeAt s.mem (s.x32 .pc).toNat = .ok .out ∧ t.out = s.out ++ [s.x8 .a]

/-! ### Operands and moves -/

/-- R50: the effective address is the exact sum, which can reach `2^32 - 1 + 255`. -/
def Obligations.EffectiveAddressIsTheExactSum : Prop :=
  (∀ s : State, s.ea = s.r32.ptr.toNat + s.r8.c.toNat ∧ s.ea ≤ 2 ^ 32 - 1 + 255) ∧
    ∃ s : State, s.ea = 2 ^ 32 - 1 + 255

/-- R53, R54, R55: the checked primitives. A byte written reads back from data and instruction reads,
every other byte keeps its value, and a failed check changes nothing because it gives no memory. -/
def Obligations.MemoryAccessesAreCheckedAndExact : Prop :=
  ∀ (m : Memory) (addr : Nat) (v : Byte),
    (m.len ≤ addr → m.read addr = .error (.addressError addr) ∧
      m.fetch addr = .error (.addressError addr) ∧
      m.write addr v = .error (.addressError addr)) ∧
    (addr < m.len → (∃ b, m.read addr = .ok b ∧ m.fetch addr = .ok b) ∧
      (m.wf → ∃ m', m.write addr v = .ok m' ∧ m'.wf ∧ m'.len = m.len ∧ m'.read addr = .ok v ∧
        m'.fetch addr = .ok v ∧ ∀ other, other ≠ addr → m'.read other = m.read other))

/-- R140, with the field map of R23 written out. -/
def Obligations.OperandReadsFollowTheFieldMap : Prop :=
  ∀ s : State,
    (read8 1#3 s = .ok s.r8.a ∧ read8 2#3 s = .ok s.r8.b ∧ read8 3#3 s = .ok s.r8.c ∧
      read8 4#3 s = .ok s.r8.d ∧ read8 5#3 s = .ok s.r8.e ∧ read8 6#3 s = .ok s.r8.f ∧
      read8 7#3 s = s.mem.read (s.r32.ptr.toNat + s.r8.c.toNat) ∧
      read8 0#3 s = .error (.semanticError 0#3)) ∧
    (read32 1#3 s = .ok s.r32.la ∧ read32 2#3 s = .ok s.r32.lb ∧ read32 3#3 s = .ok s.r32.lc ∧
      read32 4#3 s = .ok s.r32.ld ∧ read32 5#3 s = .ok s.r32.ptr ∧ read32 6#3 s = .ok s.r32.pc ∧
      read32 0#3 s = .error (.semanticError 0#3) ∧ read32 7#3 s = .error (.semanticError 7#3))

/-- R141: a write by field writes the named register and nothing else, or one byte at the effective
address, the low byte of a 32-bit value (R57). -/
def Obligations.OperandWritesFollowTheFieldMap : Prop :=
  ∀ (s : State) (v : Byte) (w : Word),
    (∀ i r, (i, r) ∈ [(1#3, Reg8.a), (2#3, .b), (3#3, .c), (4#3, .d), (5#3, .e), (6#3, .f)] →
      ∃ t, write8 i v s = .ok t ∧ t.x8 r = v ∧ UnchangedBut [r] [] s t) ∧
    (∀ i r, (i, r) ∈ [(1#3, Reg32.la), (2#3, .lb), (3#3, .lc), (4#3, .ld), (5#3, .ptr), (6#3, .pc)] →
      ∃ t, write32 i w s = .ok t ∧ t.x32 r = w ∧ UnchangedBut [] [r] s t) ∧
    (s.mem.wf → s.ea < s.mem.len →
      (∃ t, write8 7#3 v s = .ok t ∧ StoresByte s.ea v s t) ∧
        ∃ t, write32 7#3 w s = .ok t ∧ StoresByte s.ea (BitVec.ofNat 8 (w.toNat % 256)) s t) ∧
    (s.mem.len ≤ s.ea → write8 7#3 v s = .error (.addressError s.ea) ∧
      write32 7#3 w s = .error (.addressError s.ea)) ∧
    write8 0#3 v s = .error (.semanticError 0#3) ∧ write32 0#3 w s = .error (.semanticError 0#3)

/-- R142: MV register to register, load, store, and the abort of each memory form. A load reads at the
effective address of the state before it, also when it writes `c` (R51). -/
def Obligations.MvCopiesOneOperand : Prop :=
  (∀ dst src : Field,
    encode (.mv dst src) = [BitVec.ofNat 8 (0x40 + 8 * dst.toNat + src.toNat)]) ∧
  (∀ (s : State) (rd rs : Reg8), ∃ t, exec (.mv (fld8 rd) (fld8 rs)) s = .next t ∧
    t.x8 rd = s.x8 rs ∧ UnchangedBut [rd] [] s t) ∧
  (∀ (s : State) (rd : Reg8), s.ea < s.mem.len →
    ∃ t v, exec (.mv (fld8 rd) fldMem) s = .next t ∧ s.mem.read s.ea = .ok v ∧ t.x8 rd = v ∧
      UnchangedBut [rd] [] s t) ∧
  (∀ (s : State) (rs : Reg8), s.mem.wf → s.ea < s.mem.len →
    ∃ t, exec (.mv fldMem (fld8 rs)) s = .next t ∧ StoresByte s.ea (s.x8 rs) s t) ∧
  (∀ (s : State) (r : Reg8), s.mem.len ≤ s.ea →
    (∃ t, exec (.mv (fld8 r) fldMem) s = .next t ∧ AbortedFrom (.addressError s.ea) s t) ∧
      ∃ t, exec (.mv fldMem (fld8 r)) s = .next t ∧ AbortedFrom (.addressError s.ea) s t) ∧
  mnemonicOf 0x7F#8 = none

/-- R144: MV32 register to register, with `pc` among the registers, and the low-byte store. -/
def Obligations.Mv32CopiesARegisterOrStoresItsLowByte : Prop :=
  (∀ dst src : Field,
    encode (.mv32 dst src) = [BitVec.ofNat 8 (0x80 + 8 * dst.toNat + src.toNat)]) ∧
  (∀ (s : State) (rd rs : Reg32), ∃ t, exec (.mv32 (fld32 rd) (fld32 rs)) s = .next t ∧
    t.x32 rd = s.x32 rs ∧ UnchangedBut [] [rd] s t) ∧
  (∀ (s : State) (rs : Reg32), s.mem.wf → s.ea < s.mem.len →
    ∃ t, exec (.mv32 fldMem (fld32 rs)) s = .next t ∧
      StoresByte s.ea (BitVec.ofNat 8 ((s.x32 rs).toNat % 256)) s t) ∧
  (∀ (s : State) (rs : Reg32), s.mem.len ≤ s.ea →
    ∃ t, exec (.mv32 fldMem (fld32 rs)) s = .next t ∧ AbortedFrom (.addressError s.ea) s t) ∧
  ∀ op ∈ [0x8F#8, 0x97#8, 0x9F#8, 0xA7#8, 0xAF#8, 0xB7#8, 0xBF#8], mnemonicOf op = none

/-- R146: MVI to a register, to memory, and its abort. -/
def Obligations.MviWritesTheImmediate : Prop :=
  (∀ (dst : Field) (imm : Byte),
    encode (.mvi dst imm) = [BitVec.ofNat 8 (0x40 + 8 * dst.toNat), imm]) ∧
  (∀ (s : State) (rd : Reg8) (imm : Byte), ∃ t, exec (.mvi (fld8 rd) imm) s = .next t ∧
    t.x8 rd = imm ∧ UnchangedBut [rd] [] s t) ∧
  (∀ (s : State) (imm : Byte), s.mem.wf → s.ea < s.mem.len →
    ∃ t, exec (.mvi fldMem imm) s = .next t ∧ StoresByte s.ea imm s t) ∧
  ∀ (s : State) (imm : Byte), s.mem.len ≤ s.ea →
    ∃ t, exec (.mvi fldMem imm) s = .next t ∧ AbortedFrom (.addressError s.ea) s t

/-- R147: MVI32 to a register, with `pc` among them, the low-byte store, and its abort. -/
def Obligations.Mvi32WritesTheImmediateOrItsLowByte : Prop :=
  (∀ (dst : Field) (imm : Word), encode (.mvi32 dst imm) =
    [BitVec.ofNat 8 (0x80 + 8 * dst.toNat), byteOf imm 0, byteOf imm 1, byteOf imm 2,
      byteOf imm 3]) ∧
  (∀ (s : State) (rd : Reg32) (imm : Word), ∃ t, exec (.mvi32 (fld32 rd) imm) s = .next t ∧
    t.x32 rd = imm ∧ UnchangedBut [] [rd] s t) ∧
  (∀ (s : State) (imm : Word), s.mem.wf → s.ea < s.mem.len →
    ∃ t, exec (.mvi32 fldMem imm) s = .next t ∧ StoresByte s.ea (BitVec.ofNat 8 (imm.toNat % 256)) s t) ∧
  ∀ (s : State) (imm : Word), s.mem.len ≤ s.ea →
    ∃ t, exec (.mvi32 fldMem imm) s = .next t ∧ AbortedFrom (.addressError s.ea) s t

/-! ### Rules of the whole machine -/

/-- The 8-bit registers an instruction writes, by R29. -/
def writes8 : Instr → List Reg8
  | .add => [.a]
  | .sub => [.a]
  | .xor => [.a]
  | .cmp => [.f]
  | .mv dst _ => (reg8OfField dst).toList
  | .mvi dst _ => (reg8OfField dst).toList
  | .aptr _ => []
  | .jez _ => []
  | .jnz _ => []
  | .out => []
  | .mv32 _ _ => []
  | .mvi32 _ _ => []
  | .halt => []

/-- The 32-bit registers an instruction's body writes, by R29. -/
def writes32 : Instr → List Reg32
  | .aptr _ => [.ptr]
  | .jez _ => [.pc]
  | .jnz _ => [.pc]
  | .mv32 dst _ => (reg32OfField dst).toList
  | .mvi32 dst _ => (reg32OfField dst).toList
  | .add => []
  | .sub => []
  | .xor => []
  | .cmp => []
  | .out => []
  | .mv _ _ => []
  | .mvi _ _ => []
  | .halt => []

/-- Whether an instruction's destination is the memory operand. -/
def writesMemory : Instr → Bool
  | .mv dst _ => dst == 7#3
  | .mvi dst _ => dst == 7#3
  | .mv32 dst _ => dst == 7#3
  | .mvi32 dst _ => dst == 7#3
  | .aptr _ => false
  | .jez _ => false
  | .jnz _ => false
  | .add => false
  | .sub => false
  | .xor => false
  | .cmp => false
  | .out => false
  | .halt => false

/-- R27, R29, R148: every instruction that does not abort writes only what R29's table lists for it.
The two register files do not overlap, memory changes only at the effective address and only for a
memory destination, the status only by HALT, which sets it to Halted, and the output only by OUT. -/
def Obligations.BodiesWriteOnlyWhatIsListed : Prop :=
  ∀ (i : Instr) (s t : State), exec i s = .next t →
    ((∀ reason, t.status ≠ .aborted reason) →
      Same8But (writes8 i) s t ∧ Same32But (writes32 i) s t ∧ SameMemoryBut s.ea s t ∧
        (writesMemory i = false → SameMemory s t) ∧ (i ≠ .halt → t.status = s.status) ∧
        (i = .halt → t.status = .halted)) ∧
    (i ≠ .out → t.out = s.out) ∧ t.params = s.params

/-- R37, R60: a step that does not abort changes at most the one byte at `ptr + c`, and never the size
of memory. -/
def Obligations.EveryStepChangesAtMostTheByteAtTheEffectiveAddress : Prop :=
  ∀ s t : State, step s = .next t → (∀ reason, t.status ≠ .aborted reason) →
    SameMemoryBut s.ea s t

/-- A run no step of which stores to the byte at `k`. -/
inductive ReachesWithoutStoreTo (k : Nat) : State → State → Prop where
  | refl (s : State) : ReachesWithoutStoreTo k s s
  | tail {s t u : State} : ReachesWithoutStoreTo k s t → step t = .next u →
      (∀ i, decodeAt t.mem (t.x32 .pc).toNat = .ok i → writesMemory i = true → t.ea ≠ k) →
      ReachesWithoutStoreTo k s u

/-- R64: a data read and an instruction fetch of byte `k` give what the last store to `k` wrote, or
the loaded byte if none precedes. The store is the memory controller's `MemWrite`, by which all four
moves store. -/
def Obligations.ReadsReturnTheLastStoreOrTheLoadedByte : Prop :=
  (∀ (s u : State) (k : Nat) (v : Byte) (m : Memory), s.mem.wf → s.mem.write k v = .ok m →
    ReachesWithoutStoreTo k (s.setMem m) u → (∀ reason, u.status ≠ .aborted reason) →
    u.mem.read k = .ok v ∧ u.mem.fetch k = .ok v) ∧
  ∀ (params : Config.Params) (bytes : List Byte) (k : Nat) (v : Byte) (u : State),
    bytes[k]? = some v → ReachesWithoutStoreTo k (loadState params bytes) u →
    (∀ reason, u.status ≠ .aborted reason) →
    u.mem.read k = .ok v ∧ u.mem.fetch k = .ok v

/-- R66: a store is seen by the fetch of the byte it wrote: if it wrote the opcode of a one-byte
instruction where the next fetch is, that instruction is what is fetched. -/
def Obligations.StoresAreSeenByTheNextFetch : Prop :=
  ∀ (s t : State) (rs : Reg8) (i : Instr), s.status = .running → s.mem.wf → s.ea < s.mem.len →
    (s.x32 .pc).toNat = s.ea → i.wf = true → encode i = [s.x8 rs] →
    exec (.mv fldMem (fld8 rs)) s = .next t → step t = exec i (t.advancePc 1)

/-- Over a whole run the size of memory never changes (R37), the output is only ever appended to (R38),
and the parameters stay as the load fixed them. That they are state that no step changes is the
model's reading of the opening list of spec/10_state.md (assumption log 3, DEDUCED). -/
def Obligations.RunsKeepMemorySizeParametersAndEarlierOutput : Prop :=
  ∀ s t : State, Reaches s t → t.mem.len = s.mem.len ∧ t.params = s.params ∧ s.out <+: t.out

/-- A state with another output buffer. -/
def withOut (o : List Byte) (s : State) : State := { s with out := o }

/-- R38: no instruction reads the bytes of the output buffer. OUT compares its length with a bounded
`OUT_CAP` (R130). So runs from two states that differ only in their outputs do the same, and append
the same bytes, when the buffer is unbounded or the two outputs have one length. -/
def Obligations.OutputBufferIsNeverRead : Prop :=
  ∀ s t : State, Reaches s t →
    ∃ appended, t.out = s.out ++ appended ∧
      ∀ o : List Byte, s.params.outCap = none ∨ o.length = s.out.length →
        Reaches (withOut o s) (withOut (o ++ appended) t)

/-- R19, R41: a run ends in one way. If it halts, it has one result and no state of it is Aborted. -/
def Obligations.AHaltingRunIsSafeAndHasOneResult : Prop :=
  ∀ (s : State) (bytes : List Byte), HaltsWith s bytes →
    SafeRun s ∧ ∀ other, HaltsWith s other → other = bytes

/-- The host's way of placing an instruction (the model's own, assumption log 2): the step after
`withFetchWord` runs what `decodeTableWord` reads. -/
def Obligations.WithFetchWordRunsThatInstruction : Prop :=
  ∀ (s : State) (nbits w : Nat) (i : Instr), s.mem.wf → decodeTableWord nbits w = some i →
    step (s.withFetchWord nbits w) = exec i ((s.withFetchWord nbits w).advancePc i.len)
end

