-- ==== Sys2Proof/Laws/Decode.lean ====
section
/-! SUPPORT. The bit fields, the byte order, the lengths and what a successful decode says. -/

namespace Sys2Proof

/-! ### Fields of a move's opcode byte -/

@[simp] theorem dstField_moveOpcode8 (d s : Field) : dstField (moveOpcode 0x40#8 d s) = d := by
  revert d s; decide

@[simp] theorem srcField_moveOpcode8 (d s : Field) : srcField (moveOpcode 0x40#8 d s) = s := by
  revert d s; decide

@[simp] theorem dstField_moveOpcode32 (d s : Field) : dstField (moveOpcode 0x80#8 d s) = d := by
  revert d s; decide

@[simp] theorem srcField_moveOpcode32 (d s : Field) : srcField (moveOpcode 0x80#8 d s) = s := by
  revert d s; decide

/-! ### Byte order -/

/-- The bytes of a 32-bit value, put together again. -/
@[simp] theorem le32_byteOf (v : Word) : le32 (byteOf v 0) (byteOf v 1) (byteOf v 2) (byteOf v 3) = v := by
  refine BitVec.eq_of_getLsbD_eq fun i hi => ?_
  simp only [le32, byteOf]
  erw [BitVec.getLsbD_append, BitVec.getLsbD_append, BitVec.getLsbD_append]
  simp only [BitVec.getLsbD_extractLsb']
  split_ifs
  all_goals
    rw [decide_eq_true (by omega), Bool.true_and]
    congr 1
    omega

/-- The low byte is the value modulo 256 (R57). -/
theorem byteOf_zero (v : Word) : byteOf v 0 = v.setWidth 8 := by
  ext i hi
  simp [byteOf]

/-! ### Lengths -/

@[simp] theorem len_halt : Instr.halt.len = 1 := rfl
@[simp] theorem len_out : Instr.out.len = 1 := rfl
@[simp] theorem len_jez (t : Word) : (Instr.jez t).len = 5 := rfl
@[simp] theorem len_jnz (t : Word) : (Instr.jnz t).len = 5 := rfl
@[simp] theorem len_cmp : Instr.cmp.len = 1 := rfl
@[simp] theorem len_add : Instr.add.len = 1 := rfl
@[simp] theorem len_sub : Instr.sub.len = 1 := rfl
@[simp] theorem len_xor : Instr.xor.len = 1 := rfl
@[simp] theorem len_aptr (v : Byte) : (Instr.aptr v).len = 2 := rfl
@[simp] theorem len_mv (d s : Field) : (Instr.mv d s).len = 1 := rfl
@[simp] theorem len_mvi (d : Field) (v : Byte) : (Instr.mvi d v).len = 2 := rfl
@[simp] theorem len_mv32 (d s : Field) : (Instr.mv32 d s).len = 1 := rfl
@[simp] theorem len_mvi32 (d : Field) (v : Word) : (Instr.mvi32 d v).len = 5 := rfl

/-- Every instruction has 1, 2 or 5 bytes (R10). -/
theorem len_cases (i : Instr) : i.len = 1 ∨ i.len = 2 ∨ i.len = 5 := by
  cases i <;> simp

/-! ### What a decode says -/

section
variable {ε : Type} {unknown : Byte → ε} {fetch : Nat → Except ε Byte}

/-- A decode succeeds exactly when the opcode is fetched, is in the table, and its operands are
fetched (R85). -/
theorem decodeWith_ok {i : Instr} :
    decodeWith unknown fetch = .ok i ↔
      ∃ op mn, fetch 0 = .ok op ∧ mnemonicOf op = some mn ∧ decodeOperands mn op fetch = .ok i := by
  unfold decodeWith
  cases h0 : fetch 0 with
  | error r => simp
  | ok op => cases hm : mnemonicOf op <;> simp [hm]

/-- A 32-bit operand is fetched exactly when its four bytes are. -/
theorem fetchImm32_ok {v : Word} :
    fetchImm32 fetch = .ok v ↔
      ∃ b0 b1 b2 b3, fetch 1 = .ok b0 ∧ fetch 2 = .ok b1 ∧ fetch 3 = .ok b2 ∧ fetch 4 = .ok b3 ∧
        le32 b0 b1 b2 b3 = v := by
  unfold fetchImm32
  cases fetch 1 <;> cases fetch 2 <;> cases fetch 3 <;> cases fetch 4 <;> simp

/-- An immediate that was decoded is the function of a value that was fetched. -/
theorem except_map_ok {α β : Type} {x : Except ε α} {f : α → β} {y : β} :
    x.map f = .ok y ↔ ∃ v, x = .ok v ∧ f v = y := by
  cases x <;> simp [Except.map]

theorem except_map_error {α β : Type} {x : Except ε α} {f : α → β} {r : ε} :
    x.map f = .error r ↔ x = .error r := by
  cases x <;> simp [Except.map]

/-- A 32-bit operand fails at its first byte that fails (R85). -/
theorem fetchImm32_error {r : ε} (h : fetchImm32 fetch = .error r) :
    ∃ k, 1 ≤ k ∧ k < 5 ∧ fetch k = .error r ∧ ∀ j, 1 ≤ j → j < k → ∃ b, fetch j = .ok b := by
  unfold fetchImm32 at h
  split at h
  · next h1 => exact ⟨1, by omega, by omega, h1.trans (by simpa using h), fun j _ _ => by omega⟩
  · next b0 h1 =>
    split at h
    · next h2 =>
      refine ⟨2, by omega, by omega, h2.trans (by simpa using h), fun j _ _ => ?_⟩
      obtain rfl : j = 1 := by omega
      exact ⟨b0, h1⟩
    · next b1 h2 =>
      split at h
      · next h3 =>
        refine ⟨3, by omega, by omega, h3.trans (by simpa using h), fun j _ _ => ?_⟩
        obtain rfl | rfl : j = 1 ∨ j = 2 := by omega
        exacts [⟨b0, h1⟩, ⟨b1, h2⟩]
      · next b2 h3 =>
        split at h
        · next h4 =>
          refine ⟨4, by omega, by omega, h4.trans (by simpa using h), fun j _ _ => ?_⟩
          obtain rfl | rfl | rfl : j = 1 ∨ j = 2 ∨ j = 3 := by omega
          exacts [⟨b0, h1⟩, ⟨b1, h2⟩, ⟨b2, h3⟩]
        · simp at h

/-- The operands fail at the first of their bytes that fails (R85). -/
theorem decodeOperands_error {mn : Mnemonic} {op : Byte} {r : ε}
    (h : decodeOperands mn op fetch = .error r) :
    ∃ k, 1 ≤ k ∧ k < mn.len ∧ fetch k = .error r ∧ ∀ j, 1 ≤ j → j < k → ∃ b, fetch j = .ok b := by
  have one : fetch 1 = .error r →
      ∃ k, 1 ≤ k ∧ k < 2 ∧ fetch k = .error r ∧ ∀ j, 1 ≤ j → j < k → ∃ b, fetch j = .ok b :=
    fun h1 => ⟨1, by omega, by omega, h1, fun j _ _ => by omega⟩
  cases mn <;> simp only [decodeOperands, fetchImm8, except_map_error, reduceCtorEq] at h
  all_goals first
    | exact fetchImm32_error h
    | exact one h

/-- Operands that decode were all fetched (R85). -/
theorem decodeOperands_fetched {mn : Mnemonic} {op : Byte} {i : Instr}
    (h : decodeOperands mn op fetch = .ok i) {k : Nat} (hk : 1 ≤ k) (hl : k < mn.len) :
    ∃ b, fetch k = .ok b := by
  have four : ∀ {v}, fetchImm32 fetch = .ok v → k < 5 → ∃ b, fetch k = .ok b := by
    intro v hv h5
    obtain ⟨b0, b1, b2, b3, h1, h2, h3, h4, -⟩ := fetchImm32_ok.mp hv
    obtain rfl | rfl | rfl | rfl : k = 1 ∨ k = 2 ∨ k = 3 ∨ k = 4 := by omega
    exacts [⟨_, h1⟩, ⟨_, h2⟩, ⟨_, h3⟩, ⟨_, h4⟩]
  have one : ∀ {v}, fetch 1 = .ok v → k < 2 → ∃ b, fetch k = .ok b := by
    intro v hv h2
    obtain rfl : k = 1 := by omega
    exact ⟨_, hv⟩
  cases mn <;> simp only [decodeOperands, fetchImm8, except_map_ok, Mnemonic.len] at h hl
  all_goals first
    | omega
    | (obtain ⟨v, hv, -⟩ := h; exact four hv hl)
    | (obtain ⟨v, hv, -⟩ := h; exact one hv hl)

/-- The operands' decode keeps the mnemonic. -/
theorem mnemonic_of_decodeOperands {mn : Mnemonic} {op : Byte} {i : Instr}
    (h : decodeOperands mn op fetch = .ok i) : i.mnemonic = mn := by
  cases mn <;> simp only [decodeOperands, Except.ok.injEq, except_map_ok] at h
  all_goals first
    | (subst h; rfl)
    | (obtain ⟨v, -, rfl⟩ := h; rfl)

/-- How a decode fails: the opcode's fetch, the table, or the first operand byte that fails (R85). -/
theorem decodeWith_error {r : ε} (h : decodeWith unknown fetch = .error r) :
    fetch 0 = .error r ∨ (∃ op, fetch 0 = .ok op ∧ mnemonicOf op = none ∧ r = unknown op) ∨
      ∃ op mn k, fetch 0 = .ok op ∧ mnemonicOf op = some mn ∧ 1 ≤ k ∧ k < mn.len ∧
        fetch k = .error r ∧ ∀ j, j < k → ∃ b, fetch j = .ok b := by
  unfold decodeWith at h
  split at h
  · next h0 => exact .inl (h0.trans (by simpa using h))
  · next op h0 =>
    split at h
    · next hm => exact .inr (.inl ⟨op, h0, hm, by simpa using h.symm⟩)
    · next mn hm =>
      obtain ⟨k, hk, hl, he, hj⟩ := decodeOperands_error h
      refine .inr (.inr ⟨op, mn, k, h0, hm, hk, hl, he, fun j hjk => ?_⟩)
      rcases Nat.eq_zero_or_pos j with rfl | hpos
      · exact ⟨op, h0⟩
      · exact hj j hpos hjk

/-- Every byte of an instruction that decodes was fetched (R85). -/
theorem decodeWith_fetched {i : Instr} (h : decodeWith unknown fetch = .ok i) {k : Nat}
    (hk : k < i.len) : ∃ b, fetch k = .ok b := by
  obtain ⟨op, mn, h0, -, ho⟩ := decodeWith_ok.mp h
  rcases Nat.eq_zero_or_pos k with rfl | hpos
  · exact ⟨op, h0⟩
  · exact decodeOperands_fetched ho hpos (mnemonic_of_decodeOperands ho ▸ hk)

end

end Sys2Proof
end

