-- ==== Sys2Proof/Laws/Memory.lean ====
section
/-! SUPPORT. The memory operations: what a read returns after a write, that every operation keeps the
canonical form, and that equal memories are equal data. -/

namespace Sys2Proof.Machine

/-! ### Cells -/

/-- The canonical form of a list of cells whose addresses lie at or above `lo`. -/
def CellsFrom (lo : Nat) (cells : List Host.Cell) : Prop :=
  cells.Pairwise (fun x y => x.1 < y.1) ∧ ∀ x ∈ cells, x.2 ≠ unlistedByte ∧ lo ≤ x.1

theorem CellsFrom.mono {lo lo' : Nat} {cells : List Host.Cell} (h : CellsFrom lo cells)
    (hle : lo' ≤ lo) : CellsFrom lo' cells :=
  ⟨h.1, fun x hx => ⟨(h.2 x hx).1, le_trans hle (h.2 x hx).2⟩⟩

@[simp] theorem cellsFrom_nil (lo : Nat) : CellsFrom lo [] := by simp [CellsFrom]

theorem cellsFrom_cons {lo k : Nat} {v : Byte} {rest : List Host.Cell} :
    CellsFrom lo ((k, v) :: rest) ↔ lo ≤ k ∧ v ≠ unlistedByte ∧ CellsFrom (k + 1) rest := by
  simp only [CellsFrom, List.pairwise_cons, List.mem_cons, forall_eq_or_imp]
  constructor
  · rintro ⟨⟨hlt, hp⟩, ⟨hv, hk⟩, hrest⟩
    exact ⟨hk, hv, hp, fun x hx => ⟨(hrest x hx).1, hlt x hx⟩⟩
  · rintro ⟨hk, hv, hp, hrest⟩
    exact ⟨⟨fun x hx => (hrest x hx).2, hp⟩, ⟨hv, hk⟩,
      fun x hx => ⟨(hrest x hx).1, by have := (hrest x hx).2; omega⟩⟩

/-- Below its first address a list of cells reads as unlisted. -/
theorem cellsRead_below {cells : List Host.Cell} {lo addr : Nat} (h : CellsFrom lo cells)
    (hlt : addr < lo) : cellsRead cells addr = unlistedByte := by
  induction cells generalizing lo with
  | nil => rfl
  | cons x rest ih =>
    obtain ⟨k, v⟩ := x
    obtain ⟨hk, -, hrest⟩ := cellsFrom_cons.mp h
    simp only [cellsRead]
    rw [if_neg (by omega)]
    exact ih hrest (by omega)

theorem cellsRead_consCell_same {addr : Nat} {v : Byte} {rest : List Host.Cell}
    (h : CellsFrom (addr + 1) rest) : cellsRead (consCell addr v rest) addr = v := by
  unfold consCell
  split
  · next hv => rw [hv]; exact cellsRead_below h (by omega)
  · simp [cellsRead]

theorem cellsRead_consCell_other {addr other : Nat} {v : Byte} {rest : List Host.Cell}
    (h : other ≠ addr) : cellsRead (consCell addr v rest) other = cellsRead rest other := by
  unfold consCell
  split
  · rfl
  · simp [cellsRead, Ne.symm h]

theorem cellsFrom_consCell {lo addr : Nat} {v : Byte} {rest : List Host.Cell} (hlo : lo ≤ addr)
    (h : CellsFrom (addr + 1) rest) : CellsFrom lo (consCell addr v rest) := by
  unfold consCell
  split
  · exact h.mono (by omega)
  · next hv => exact cellsFrom_cons.mpr ⟨hlo, hv, h⟩

/-- A read of the byte just written gives the value written. -/
theorem cellsRead_cellsWrite_same {cells : List Host.Cell} {lo addr : Nat} {v : Byte}
    (h : CellsFrom lo cells) : cellsRead (cellsWrite cells addr v) addr = v := by
  induction cells generalizing lo with
  | nil => exact cellsRead_consCell_same (cellsFrom_nil _)
  | cons x rest ih =>
    obtain ⟨k, w⟩ := x
    obtain ⟨-, hw, hrest⟩ := cellsFrom_cons.mp h
    simp only [cellsWrite]
    split
    · exact cellsRead_consCell_same (cellsFrom_cons.mpr ⟨by omega, hw, hrest⟩)
    · split
      · next heq => exact cellsRead_consCell_same (heq ▸ hrest)
      · next hne => simpa [cellsRead, Ne.symm hne] using ih hrest

/-- A write leaves every other byte as it was. -/
theorem cellsRead_cellsWrite_other {cells : List Host.Cell} {addr other : Nat} {v : Byte}
    (h : other ≠ addr) : cellsRead (cellsWrite cells addr v) other = cellsRead cells other := by
  induction cells with
  | nil => exact cellsRead_consCell_other h
  | cons x rest ih =>
    obtain ⟨k, w⟩ := x
    simp only [cellsWrite]
    split
    · exact cellsRead_consCell_other h
    · split
      · next heq => simp [cellsRead_consCell_other h, cellsRead, ← heq, Ne.symm h]
      · simp [cellsRead, ih]

theorem cellsFrom_cellsWrite {cells : List Host.Cell} {lo addr : Nat} {v : Byte}
    (h : CellsFrom lo cells) (hlo : lo ≤ addr) : CellsFrom lo (cellsWrite cells addr v) := by
  induction cells generalizing lo with
  | nil => exact cellsFrom_consCell hlo (cellsFrom_nil _)
  | cons x rest ih =>
    obtain ⟨k, w⟩ := x
    obtain ⟨hk, hw, hrest⟩ := cellsFrom_cons.mp h
    simp only [cellsWrite]
    split
    · exact cellsFrom_consCell hlo (cellsFrom_cons.mpr ⟨by omega, hw, hrest⟩)
    · split
      · next heq => exact cellsFrom_consCell hlo (heq ▸ hrest)
      · exact cellsFrom_cons.mpr ⟨hk, hw, ih hrest (by omega)⟩

theorem mem_consCell {addr : Nat} {v : Byte} {rest : List Host.Cell} {x : Host.Cell}
    (h : x ∈ consCell addr v rest) : x.1 = addr ∨ x ∈ rest := by
  unfold consCell at h
  split at h
  · exact .inr h
  · rcases List.mem_cons.mp h with rfl | hx
    · exact .inl rfl
    · exact .inr hx

/-- A write lists no address but the one written and those listed before. -/
theorem mem_cellsWrite {cells : List Host.Cell} {addr : Nat} {v : Byte} {x : Host.Cell}
    (h : x ∈ cellsWrite cells addr v) : x.1 = addr ∨ x ∈ cells := by
  induction cells with
  | nil => exact mem_consCell h
  | cons y rest ih =>
    simp only [cellsWrite] at h
    split at h
    · exact mem_consCell h
    · split at h
      · rcases mem_consCell h with hx | hx
        · exact .inl hx
        · exact .inr (List.mem_cons_of_mem _ hx)
      · rcases List.mem_cons.mp h with rfl | hx
        · exact .inr (List.mem_cons_self)
        · rcases ih hx with hx | hx
          · exact .inl hx
          · exact .inr (List.mem_cons_of_mem _ hx)

/-- Canonical lists of cells that read the same are the same list. -/
theorem cells_ext {xs ys : List Host.Cell} {lo : Nat} (hx : CellsFrom lo xs) (hy : CellsFrom lo ys)
    (h : ∀ addr, cellsRead xs addr = cellsRead ys addr) : xs = ys := by
  induction xs generalizing ys lo with
  | nil =>
    cases ys with
    | nil => rfl
    | cons y rest =>
      obtain ⟨k, v⟩ := y
      exact absurd (by simpa [cellsRead] using (h k).symm) (cellsFrom_cons.mp hy).2.1
  | cons x xrest ih =>
    obtain ⟨k, v⟩ := x
    obtain ⟨hk, hv, hxr⟩ := cellsFrom_cons.mp hx
    cases ys with
    | nil => exact absurd (by simpa [cellsRead] using h k) hv
    | cons y yrest =>
      obtain ⟨j, w⟩ := y
      obtain ⟨hj, hw, hyr⟩ := cellsFrom_cons.mp hy
      have hkj : k = j := by
        rcases lt_trichotomy k j with hlt | heq | hgt
        · have := h k
          simp only [cellsRead, if_true, if_neg (show ¬ j = k by omega)] at this
          exact absurd (this.trans (cellsRead_below hyr (by omega))) hv
        · exact heq
        · have := (h j).symm
          simp only [cellsRead, if_true, if_neg (show ¬ k = j by omega)] at this
          exact absurd (this.trans (cellsRead_below hxr (by omega))) hw
      subst hkj
      have hvw : v = w := by simpa [cellsRead] using h k
      subst hvw
      congr 1
      refine ih hxr hyr fun addr => ?_
      by_cases ha : k = addr
      · subst ha
        rw [cellsRead_below hxr (by omega), cellsRead_below hyr (by omega)]
      · simpa [cellsRead, ha] using h addr

theorem cellsFrom_cellsOfBytes (base : Nat) (bytes : List Byte) :
    CellsFrom base (cellsOfBytes base bytes) := by
  induction bytes generalizing base with
  | nil => exact cellsFrom_nil _
  | cons b rest ih => exact cellsFrom_consCell (le_refl _) (ih (base + 1))

theorem cellsRead_cellsOfBytes (base : Nat) (bytes : List Byte) (k : Nat) :
    cellsRead (cellsOfBytes base bytes) (base + k) = bytes[k]?.getD unlistedByte := by
  induction bytes generalizing base k with
  | nil => rfl
  | cons b rest ih =>
    cases k with
    | zero => simpa [cellsOfBytes] using cellsRead_consCell_same (cellsFrom_cellsOfBytes (base + 1) rest)
    | succ k =>
      rw [cellsOfBytes, cellsRead_consCell_other (by omega),
        show base + (k + 1) = base + 1 + k by omega, ih (base + 1) k]
      simp

theorem mem_cellsOfBytes {base : Nat} {bytes : List Byte} {x : Host.Cell}
    (h : x ∈ cellsOfBytes base bytes) : x.1 < base + bytes.length := by
  induction bytes generalizing base with
  | nil => simp [cellsOfBytes] at h
  | cons b rest ih =>
    rcases mem_consCell h with hx | hx
    · simp [hx]
    · have := ih hx
      simp only [List.length_cons]
      omega

/-! ### The checked primitives -/

/-- When a read returns, and what (R53). -/
theorem Memory.read_ok {m : Memory} {addr : Nat} {v : Byte} :
    m.read addr = .ok v ↔ addr < m.len ∧ cellsRead m.cells addr = v := by
  unfold Memory.read
  split
  · next h => simp; omega
  · next h => simp; omega

/-- When a read aborts, and with what (R53). -/
theorem Memory.read_error {m : Memory} {addr : Nat} {r : Abort} :
    m.read addr = .error r ↔ m.len ≤ addr ∧ r = .addressError addr := by
  unfold Memory.read
  split
  · next h => simp [h, eq_comm]
  · next h => simp [h]

/-- When a write returns, and what (R54). -/
theorem Memory.write_ok {m m' : Memory} {addr : Nat} {v : Byte} :
    m.write addr v = .ok m' ↔ addr < m.len ∧ m' = { m with cells := cellsWrite m.cells addr v } := by
  unfold Memory.write
  split
  · next h => simp; omega
  · next h => simp [eq_comm]; omega

/-- When a write aborts, and with what (R54). -/
theorem Memory.write_error {m : Memory} {addr : Nat} {v : Byte} {r : Abort} :
    m.write addr v = .error r ↔ m.len ≤ addr ∧ r = .addressError addr := by
  unfold Memory.write
  split
  · next h => simp [h, eq_comm]
  · next h => simp [h]

/-- The instruction-byte read is the data read: one space holds code and data (R55, R62). -/
theorem Memory.fetch_eq_read (m : Memory) (addr : Nat) : m.fetch addr = m.read addr := rfl

theorem Memory.wf_iff {m : Memory} :
    m.wf ↔ CellsFrom 0 m.cells ∧ (∀ x ∈ m.cells, x.1 < m.len) ∧ m.len ≤ Config.maxMemLen := by
  constructor
  · rintro ⟨hp, hx, hl⟩
    exact ⟨⟨hp, fun x h => ⟨(hx x h).1, Nat.zero_le _⟩⟩, fun x h => (hx x h).2, hl⟩
  · rintro ⟨⟨hp, hx⟩, hlt, hl⟩
    exact ⟨hp, fun x h => ⟨(hx x h).1, hlt x h⟩, hl⟩

/-! ### Every operation keeps the canonical form -/

theorem Memory.wf_write {m m' : Memory} {addr : Nat} {v : Byte} (hm : m.wf)
    (h : m.write addr v = .ok m') : m'.wf := by
  obtain ⟨hlt, rfl⟩ := Memory.write_ok.mp h
  obtain ⟨hc, hx, hl⟩ := Memory.wf_iff.mp hm
  refine Memory.wf_iff.mpr ⟨cellsFrom_cellsWrite hc (Nat.zero_le _), fun x h => ?_, hl⟩
  rcases mem_cellsWrite h with h | h
  · exact h ▸ hlt
  · exact hx x h

theorem Memory.wf_ofBytes {bytes : List Byte} (h : bytes.length ≤ Config.maxMemLen) :
    (Memory.ofBytes bytes).wf := by
  refine Memory.wf_iff.mpr ⟨cellsFrom_cellsOfBytes 0 bytes, fun x hx => ?_, h⟩
  simpa [Memory.ofBytes] using mem_cellsOfBytes hx

theorem cellsWriteBytes_keeps {cells : List Host.Cell} {base len : Nat} {bytes : List Byte}
    (hc : CellsFrom 0 cells) (hx : ∀ x ∈ cells, x.1 < len) (hlen : base + bytes.length ≤ len) :
    CellsFrom 0 (cellsWriteBytes cells base bytes) ∧
      ∀ x ∈ cellsWriteBytes cells base bytes, x.1 < len := by
  induction bytes generalizing cells base with
  | nil => exact ⟨hc, hx⟩
  | cons b rest ih =>
    simp only [List.length_cons] at hlen
    refine ih (cellsFrom_cellsWrite hc (Nat.zero_le _)) (fun x h => ?_) (by omega)
    rcases mem_cellsWrite h with h | h
    · omega
    · exact hx x h

theorem Memory.wf_overlay {m : Memory} {base : Nat} {bytes : List Byte} (hm : m.wf)
    (h : base + bytes.length ≤ Config.maxMemLen) : (m.overlay base bytes).wf := by
  obtain ⟨hc, hx, hl⟩ := Memory.wf_iff.mp hm
  have := cellsWriteBytes_keeps (len := max m.len (base + bytes.length)) hc
    (fun x hx' => lt_of_lt_of_le (hx x hx') (le_max_left _ _)) (le_max_right _ _)
  exact Memory.wf_iff.mpr ⟨this.1, this.2, max_le hl h⟩

/-! ### Read after write -/

theorem Memory.read_write_same {m m' : Memory} {addr : Nat} {v : Byte} (hm : m.wf)
    (h : m.write addr v = .ok m') : m'.read addr = .ok v := by
  obtain ⟨hlt, rfl⟩ := Memory.write_ok.mp h
  exact Memory.read_ok.mpr ⟨hlt, cellsRead_cellsWrite_same (Memory.wf_iff.mp hm).1⟩

theorem Memory.read_write_other {m m' : Memory} {addr other : Nat} {v : Byte}
    (h : m.write addr v = .ok m') (hne : other ≠ addr) : m'.read other = m.read other := by
  obtain ⟨-, rfl⟩ := Memory.write_ok.mp h
  simp [Memory.read, cellsRead_cellsWrite_other hne]

theorem Memory.write_len {m m' : Memory} {addr : Nat} {v : Byte} (h : m.write addr v = .ok m') :
    m'.len = m.len := by
  obtain ⟨-, rfl⟩ := Memory.write_ok.mp h
  rfl

end Sys2Proof.Machine
end

