-- ==== Sys2Proof/Laws/State.lean ====
section
/-! SUPPORT. One lemma per field per update of the state, and the reads after a register write. -/

namespace Sys2Proof.Machine

variable (s : State)

/-! ### Fields after an update -/

@[simp] theorem State.setX8_r8 (r : Reg8) (v : Byte) : (s.setX8 r v).r8 = s.r8.set r v := rfl
@[simp] theorem State.setX8_r32 (r : Reg8) (v : Byte) : (s.setX8 r v).r32 = s.r32 := rfl
@[simp] theorem State.setX8_mem (r : Reg8) (v : Byte) : (s.setX8 r v).mem = s.mem := rfl
@[simp] theorem State.setX8_out (r : Reg8) (v : Byte) : (s.setX8 r v).out = s.out := rfl
@[simp] theorem State.setX8_status (r : Reg8) (v : Byte) : (s.setX8 r v).status = s.status := rfl
@[simp] theorem State.setX8_params (r : Reg8) (v : Byte) : (s.setX8 r v).params = s.params := rfl

@[simp] theorem State.setX32_r8 (r : Reg32) (v : Word) : (s.setX32 r v).r8 = s.r8 := rfl
@[simp] theorem State.setX32_r32 (r : Reg32) (v : Word) : (s.setX32 r v).r32 = s.r32.set r v := rfl
@[simp] theorem State.setX32_mem (r : Reg32) (v : Word) : (s.setX32 r v).mem = s.mem := rfl
@[simp] theorem State.setX32_out (r : Reg32) (v : Word) : (s.setX32 r v).out = s.out := rfl
@[simp] theorem State.setX32_status (r : Reg32) (v : Word) : (s.setX32 r v).status = s.status := rfl
@[simp] theorem State.setX32_params (r : Reg32) (v : Word) : (s.setX32 r v).params = s.params := rfl

@[simp] theorem State.setMem_r8 (m : Memory) : (s.setMem m).r8 = s.r8 := rfl
@[simp] theorem State.setMem_r32 (m : Memory) : (s.setMem m).r32 = s.r32 := rfl
@[simp] theorem State.setMem_mem (m : Memory) : (s.setMem m).mem = m := rfl
@[simp] theorem State.setMem_out (m : Memory) : (s.setMem m).out = s.out := rfl
@[simp] theorem State.setMem_status (m : Memory) : (s.setMem m).status = s.status := rfl
@[simp] theorem State.setMem_params (m : Memory) : (s.setMem m).params = s.params := rfl

@[simp] theorem State.setStatus_r8 (st : Status) : (s.setStatus st).r8 = s.r8 := rfl
@[simp] theorem State.setStatus_r32 (st : Status) : (s.setStatus st).r32 = s.r32 := rfl
@[simp] theorem State.setStatus_mem (st : Status) : (s.setStatus st).mem = s.mem := rfl
@[simp] theorem State.setStatus_out (st : Status) : (s.setStatus st).out = s.out := rfl
@[simp] theorem State.setStatus_status (st : Status) : (s.setStatus st).status = st := rfl
@[simp] theorem State.setStatus_params (st : Status) : (s.setStatus st).params = s.params := rfl

@[simp] theorem State.appendOut_r8 (v : Byte) : (s.appendOut v).r8 = s.r8 := rfl
@[simp] theorem State.appendOut_r32 (v : Byte) : (s.appendOut v).r32 = s.r32 := rfl
@[simp] theorem State.appendOut_mem (v : Byte) : (s.appendOut v).mem = s.mem := rfl
@[simp] theorem State.appendOut_out (v : Byte) : (s.appendOut v).out = s.out ++ [v] := rfl
@[simp] theorem State.appendOut_status (v : Byte) : (s.appendOut v).status = s.status := rfl
@[simp] theorem State.appendOut_params (v : Byte) : (s.appendOut v).params = s.params := rfl

@[simp] theorem State.advancePc_r8 (n : Nat) : (s.advancePc n).r8 = s.r8 := rfl
@[simp] theorem State.advancePc_r32 (n : Nat) : (s.advancePc n).r32 = s.r32.set .pc (s.x32 .pc + BitVec.ofNat 32 n) := rfl
@[simp] theorem State.advancePc_mem (n : Nat) : (s.advancePc n).mem = s.mem := rfl
@[simp] theorem State.advancePc_out (n : Nat) : (s.advancePc n).out = s.out := rfl
@[simp] theorem State.advancePc_status (n : Nat) : (s.advancePc n).status = s.status := rfl
@[simp] theorem State.advancePc_params (n : Nat) : (s.advancePc n).params = s.params := rfl

@[simp] theorem State.raise_r8 (reason : Abort) : (s.raise reason).r8 = s.r8 := rfl
@[simp] theorem State.raise_r32 (reason : Abort) : (s.raise reason).r32 = s.r32 := rfl
@[simp] theorem State.raise_mem (reason : Abort) : (s.raise reason).mem = s.mem := rfl
@[simp] theorem State.raise_out (reason : Abort) : (s.raise reason).out = s.out := rfl
@[simp] theorem State.raise_status (reason : Abort) : (s.raise reason).status = .aborted reason := rfl
@[simp] theorem State.raise_params (reason : Abort) : (s.raise reason).params = s.params := rfl

/-! ### Register reads after an update -/

@[simp] theorem File8.get_set (file : File8) (r q : Reg8) (v : Byte) :
    (file.set r v).get q = if q = r then v else file.get q := by
  cases r <;> cases q <;> rfl

@[simp] theorem File32.get_set (file : File32) (r q : Reg32) (v : Word) :
    (file.set r v).get q = if q = r then v else file.get q := by
  cases r <;> cases q <;> rfl

@[simp] theorem State.x8_setX8 (r q : Reg8) (v : Byte) :
    (s.setX8 r v).x8 q = if q = r then v else s.x8 q := File8.get_set s.r8 r q v

@[simp] theorem State.x32_setX32 (r q : Reg32) (v : Word) :
    (s.setX32 r v).x32 q = if q = r then v else s.x32 q := File32.get_set s.r32 r q v

/-- The 32-bit file is not touched by a write of the 8-bit file (R27). -/
@[simp] theorem State.x32_setX8 (r : Reg8) (q : Reg32) (v : Byte) : (s.setX8 r v).x32 q = s.x32 q := rfl

/-- The 8-bit file is not touched by a write of the 32-bit file (R27). -/
@[simp] theorem State.x8_setX32 (r : Reg32) (q : Reg8) (v : Word) : (s.setX32 r v).x8 q = s.x8 q := rfl

@[simp] theorem State.x8_setMem (m : Memory) (q : Reg8) : (s.setMem m).x8 q = s.x8 q := rfl
@[simp] theorem State.x32_setMem (m : Memory) (q : Reg32) : (s.setMem m).x32 q = s.x32 q := rfl
@[simp] theorem State.x8_setStatus (st : Status) (q : Reg8) : (s.setStatus st).x8 q = s.x8 q := rfl
@[simp] theorem State.x32_setStatus (st : Status) (q : Reg32) : (s.setStatus st).x32 q = s.x32 q := rfl
@[simp] theorem State.x8_appendOut (v : Byte) (q : Reg8) : (s.appendOut v).x8 q = s.x8 q := rfl
@[simp] theorem State.x32_appendOut (v : Byte) (q : Reg32) : (s.appendOut v).x32 q = s.x32 q := rfl
@[simp] theorem State.x8_raise (reason : Abort) (q : Reg8) : (s.raise reason).x8 q = s.x8 q := rfl
@[simp] theorem State.x32_raise (reason : Abort) (q : Reg32) : (s.raise reason).x32 q = s.x32 q := rfl
@[simp] theorem State.x8_advancePc (n : Nat) (q : Reg8) : (s.advancePc n).x8 q = s.x8 q := rfl

@[simp] theorem State.x32_advancePc (n : Nat) (q : Reg32) :
    (s.advancePc n).x32 q = if q = .pc then s.x32 .pc + BitVec.ofNat 32 n else s.x32 q :=
  State.x32_setX32 s .pc q _

/-! ### The effective address -/

/-- Writing a register other than `c` leaves the effective address (R50). -/
theorem State.ea_setX8 (r : Reg8) (v : Byte) (h : r ≠ .c) : (s.setX8 r v).ea = s.ea := by
  simp [State.ea, h.symm]

/-- Writing a register other than `ptr` leaves the effective address (R50). -/
theorem State.ea_setX32 (r : Reg32) (v : Word) (h : r ≠ .ptr) : (s.setX32 r v).ea = s.ea := by
  simp [State.ea, h.symm]

/-- The `pc` advance leaves the effective address. -/
@[simp] theorem State.ea_advancePc (n : Nat) : (s.advancePc n).ea = s.ea :=
  s.ea_setX32 .pc _ (by decide)

end Sys2Proof.Machine
end

