-- ==== Sys2Proof/Laws/Operands.lean ====
section
/-! SUPPORT. The field map and what the operand reads and writes can do. -/

namespace Sys2Proof.Machine

/-! ### The field map -/

@[simp] theorem reg8OfField_fld8 (r : Reg8) : reg8OfField (fld8 r) = some r := by cases r <;> rfl
@[simp] theorem reg32OfField_fld32 (r : Reg32) : reg32OfField (fld32 r) = some r := by cases r <;> rfl
@[simp] theorem reg8OfField_fldMem : reg8OfField fldMem = none := rfl
@[simp] theorem reg32OfField_fldMem : reg32OfField fldMem = none := rfl
@[simp] theorem fld8_ne_fldMem (r : Reg8) : fld8 r ≠ fldMem := by cases r <;> decide
@[simp] theorem fld32_ne_fldMem (r : Reg32) : fld32 r ≠ fldMem := by cases r <;> decide

/-- A field value is 0, a register's, or the memory operand's (R23), in an 8-bit context. -/
theorem field_cases8 (i : Field) : i = 0#3 ∨ (∃ r, i = fld8 r) ∨ i = fldMem := by
  have h : ∀ i : Field, i = 0#3 ∨ i = fld8 .a ∨ i = fld8 .b ∨ i = fld8 .c ∨ i = fld8 .d ∨
      i = fld8 .e ∨ i = fld8 .f ∨ i = fldMem := by decide
  rcases h i with h | h | h | h | h | h | h | h
  · exact .inl h
  all_goals first
    | exact .inr (.inr h)
    | exact .inr (.inl ⟨_, h⟩)

/-- The same in a 32-bit context (R23). -/
theorem field_cases32 (i : Field) : i = 0#3 ∨ (∃ r, i = fld32 r) ∨ i = fldMem := by
  have h : ∀ i : Field, i = 0#3 ∨ i = fld32 .la ∨ i = fld32 .lb ∨ i = fld32 .lc ∨ i = fld32 .ld ∨
      i = fld32 .ptr ∨ i = fld32 .pc ∨ i = fldMem := by decide
  rcases h i with h | h | h | h | h | h | h | h
  · exact .inl h
  all_goals first
    | exact .inr (.inr h)
    | exact .inr (.inl ⟨_, h⟩)

/-! ### Reads and writes by form -/

section
variable (s : State)

@[simp] theorem read8_reg (r : Reg8) : read8 (fld8 r) s = .ok (s.x8 r) := by simp [read8]
@[simp] theorem read8_mem : read8 fldMem s = s.mem.read s.ea := by simp [read8]
@[simp] theorem read32_reg (r : Reg32) : read32 (fld32 r) s = .ok (s.x32 r) := by simp [read32]

@[simp] theorem write8_reg (r : Reg8) (v : Byte) : write8 (fld8 r) v s = .ok (s.setX8 r v) := by
  simp [write8]

@[simp] theorem write8_mem (v : Byte) : write8 fldMem v s = writeMem v s := by simp [write8]

@[simp] theorem write32_reg (r : Reg32) (v : Word) : write32 (fld32 r) v s = .ok (s.setX32 r v) := by
  simp [write32]

@[simp] theorem write32_mem (v : Word) : write32 fldMem v s = writeMem (byteOf v 0) s := by
  simp [write32]

@[simp] theorem notMemToMem_reg_src (d : Field) (r : Reg8) : notMemToMem d (fld8 r) = .ok () := by
  simp [notMemToMem]

@[simp] theorem notMemToMem_reg_dst (r : Reg8) (i : Field) : notMemToMem (fld8 r) i = .ok () := by
  simp [notMemToMem]

end

/-! ### Everything an operand access can do -/

variable {s t : State}

/-- A store of the memory operand returns: the byte at the effective address is written (R54). -/
theorem writeMem_ok {v : Byte} :
    writeMem v s = .ok t ↔ ∃ m, s.mem.write s.ea v = .ok m ∧ t = s.setMem m := by
  unfold writeMem
  cases s.mem.write s.ea v <;> simp [Except.map, eq_comm]

/-- A store of the memory operand aborts (R54). -/
theorem writeMem_error {v : Byte} {r : Abort} :
    writeMem v s = .error r ↔ s.mem.len ≤ s.ea ∧ r = .addressError s.ea := by
  rw [← Memory.write_error (v := v)]
  unfold writeMem
  cases s.mem.write s.ea v <;> simp [Except.map]

theorem write8_ok {i : Field} {v : Byte} (h : write8 i v s = .ok t) :
    (∃ r, i = fld8 r ∧ t = s.setX8 r v) ∨
      (i = fldMem ∧ ∃ m, s.mem.write s.ea v = .ok m ∧ t = s.setMem m) := by
  rcases field_cases8 i with rfl | ⟨r, rfl⟩ | rfl
  · simp [write8, reg8OfField, fldMem] at h
  · exact .inl ⟨r, rfl, by simpa using h.symm⟩
  · exact .inr ⟨rfl, writeMem_ok.mp (by simpa using h)⟩

theorem write8_error {i : Field} {v : Byte} {r : Abort} (h : write8 i v s = .error r) :
    (i = 0#3 ∧ r = .semanticError 0#3) ∨ (i = fldMem ∧ s.mem.len ≤ s.ea ∧ r = .addressError s.ea) := by
  rcases field_cases8 i with rfl | ⟨q, rfl⟩ | rfl
  · exact .inl ⟨rfl, by simpa [write8, reg8OfField, fldMem] using h.symm⟩
  · simp at h
  · exact .inr ⟨rfl, writeMem_error.mp (by simpa using h)⟩

theorem write32_ok {i : Field} {v : Word} (h : write32 i v s = .ok t) :
    (∃ r, i = fld32 r ∧ t = s.setX32 r v) ∨
      (i = fldMem ∧ ∃ m, s.mem.write s.ea (byteOf v 0) = .ok m ∧ t = s.setMem m) := by
  rcases field_cases32 i with rfl | ⟨r, rfl⟩ | rfl
  · simp [write32, reg32OfField, fldMem] at h
  · exact .inl ⟨r, rfl, by simpa using h.symm⟩
  · exact .inr ⟨rfl, writeMem_ok.mp (by simpa using h)⟩

theorem write32_error {i : Field} {v : Word} {r : Abort} (h : write32 i v s = .error r) :
    (i = 0#3 ∧ r = .semanticError 0#3) ∨ (i = fldMem ∧ s.mem.len ≤ s.ea ∧ r = .addressError s.ea) := by
  rcases field_cases32 i with rfl | ⟨q, rfl⟩ | rfl
  · exact .inl ⟨rfl, by simpa [write32, reg32OfField, fldMem] using h.symm⟩
  · simp at h
  · exact .inr ⟨rfl, writeMem_error.mp (by simpa using h)⟩

theorem read8_error {i : Field} {r : Abort} (h : read8 i s = .error r) :
    (i = 0#3 ∧ r = .semanticError 0#3) ∨ (i = fldMem ∧ s.mem.len ≤ s.ea ∧ r = .addressError s.ea) := by
  rcases field_cases8 i with rfl | ⟨q, rfl⟩ | rfl
  · exact .inl ⟨rfl, by simpa [read8, reg8OfField, fldMem] using h.symm⟩
  · simp at h
  · exact .inr ⟨rfl, Memory.read_error.mp (by simpa using h)⟩

theorem read32_error {i : Field} {r : Abort} (h : read32 i s = .error r) :
    (i = 0#3 ∨ i = fldMem) ∧ r = .semanticError i := by
  rcases field_cases32 i with rfl | ⟨q, rfl⟩ | rfl
  · exact ⟨.inl rfl, by simpa [read32, reg32OfField] using h.symm⟩
  · simp at h
  · exact ⟨.inr rfl, by simpa [read32] using h.symm⟩

theorem notMemToMem_error {d i : Field} {r : Abort} (h : notMemToMem d i = .error r) :
    d = fldMem ∧ i = fldMem ∧ r = .semanticError fldMem := by
  unfold notMemToMem at h
  split at h
  · next hc => exact ⟨hc.1, hc.2, by simpa using h.symm⟩
  · simp at h

end Sys2Proof.Machine
end

