-- ==== Sys2Proof/Laws/PerInstr.lean ====
section
/-! SUPPORT. The facts made per instruction. The family EncodedLength: an encoding has as many bytes as
the length table gives the mnemonic (spec/30_encoding.md R70, R83). -/

namespace Sys2Proof.Laws.EncodedLength

/-- The encoding has the length of R83. -/
def Statement (i : Instr) : Prop := (encode i).length = i.len

theorem halt : Statement .halt := rfl
theorem out : Statement .out := rfl
theorem jez (target : Word) : Statement (.jez target) := rfl
theorem jnz (target : Word) : Statement (.jnz target) := rfl
theorem cmp : Statement .cmp := rfl
theorem add : Statement .add := rfl
theorem sub : Statement .sub := rfl
theorem xor : Statement .xor := rfl
theorem aptr (imm : Byte) : Statement (.aptr imm) := rfl
theorem mv (dst src : Field) : Statement (.mv dst src) := rfl
theorem mvi (dst : Field) (imm : Byte) : Statement (.mvi dst imm) := rfl
theorem mv32 (dst src : Field) : Statement (.mv32 dst src) := rfl
theorem mvi32 (dst : Field) (imm : Word) : Statement (.mvi32 dst imm) := rfl

end Sys2Proof.Laws.EncodedLength
end

