-- ==== Sys2Proof/Laws/Step.lean ====
section
/-! SUPPORT. What a body and a step can do, said once: every later fact about a step is a case
analysis over these lemmas. -/

namespace Sys2Proof.Machine

/-- What `finish` answers. -/
theorem finish_next {s t : State} {result : Except Abort State} :
    finish s result = .next t ↔ result = .ok t ∨ ∃ r, result = .error r ∧ t = s.raise r := by
  cases result <;> simp [finish, eq_comm]

/-- The moves that name the memory operand. -/
def NamesMemory (i : Instr) : Prop :=
  (∃ src, i = .mv fldMem src) ∨ (∃ dst, i = .mv dst fldMem) ∨ (∃ imm, i = .mvi fldMem imm) ∨
    (∃ src, i = .mv32 fldMem src) ∨ ∃ imm, i = .mvi32 fldMem imm

/-- How a body can abort (R186, R187): the four causes, each with the instruction that raises it and
the check that failed. The last belongs to no decoded instruction. -/
def BodyAborts (i : Instr) (s : State) (reason : Abort) : Prop :=
  (NamesMemory i ∧ s.mem.len ≤ s.ea ∧ reason = .addressError s.ea) ∨
    ((∃ imm : Byte, i = .aptr imm ∧ 2 ^ 32 ≤ (s.x32 .ptr).toNat + imm.toNat) ∧
      s.params.aptrOverflow = .abort ∧ reason = .aptrOverflow (s.x32 .ptr)) ∨
    (i = .out ∧ outFull s = true ∧ reason = .outputOverflow s.out.length) ∨
    (i.wf = false ∧ ∃ field, reason = .semanticError field)

/-- What a body that does not abort can do: it writes one thing, or nothing (R29, R148). -/
def BodyWrites (i : Instr) (s t : State) : Prop :=
  t = s ∨ (∃ r v, t = s.setX8 r v) ∨ (∃ r v, t = s.setX32 r v) ∨
    (∃ v m, s.mem.write s.ea v = .ok m ∧ t = s.setMem m) ∨
    (i = .out ∧ outFull s = false ∧ t = s.appendOut (s.x8 .a)) ∨
    (i = .halt ∧ t = s.setStatus .halted)

theorem aptrSum_error {o : Config.AptrOverflow} {p : Word} {imm : Byte} {r : Abort}
    (h : aptrSum o p imm = .error r) :
    2 ^ 32 ≤ p.toNat + imm.toNat ∧ o = .abort ∧ r = .aptrOverflow p := by
  unfold aptrSum at h
  split at h
  · simp at h
  · next hge => exact ⟨not_lt.mp hge, by cases o <;> simp_all⟩

theorem write8_body {i : Instr} {s t : State} {dst : Field} {v : Byte} (h : write8 dst v s = .ok t) :
    BodyWrites i s t := by
  rcases write8_ok h with ⟨r, -, rfl⟩ | ⟨-, m, hm, rfl⟩
  · exact .inr (.inl ⟨r, v, rfl⟩)
  · exact .inr (.inr (.inr (.inl ⟨v, m, hm, rfl⟩)))

theorem write32_body {i : Instr} {s t : State} {dst : Field} {v : Word} (h : write32 dst v s = .ok t) :
    BodyWrites i s t := by
  rcases write32_ok h with ⟨r, -, rfl⟩ | ⟨-, m, hm, rfl⟩
  · exact .inr (.inr (.inl ⟨r, v, rfl⟩))
  · exact .inr (.inr (.inr (.inl ⟨_, m, hm, rfl⟩)))

/-- Every body answers a next state: the one it made, or the abort it raised. -/
theorem exec_cases (i : Instr) (s : State) :
    (∃ t, exec i s = .next t ∧ BodyWrites i s t) ∨
      ∃ reason, exec i s = .next (s.raise reason) ∧ BodyAborts i s reason := by
  cases i with
  | halt => exact .inl ⟨_, rfl, .inr (.inr (.inr (.inr (.inr ⟨rfl, rfl⟩))))⟩
  | out =>
    cases hf : outFull s with
    | true => exact .inr ⟨_, by simp [exec, execOut, hf, finish], .inr (.inr (.inl ⟨rfl, hf, rfl⟩))⟩
    | false =>
      exact .inl ⟨_, by simp [exec, execOut, hf, finish], .inr (.inr (.inr (.inr (.inl ⟨rfl, hf, rfl⟩))))⟩
  | jez target =>
    refine .inl ⟨_, rfl, ?_⟩
    split
    · exact .inr (.inr (.inl ⟨_, _, rfl⟩))
    · exact .inl rfl
  | jnz target =>
    refine .inl ⟨_, rfl, ?_⟩
    split
    · exact .inr (.inr (.inl ⟨_, _, rfl⟩))
    · exact .inl rfl
  | cmp => exact .inl ⟨_, rfl, .inr (.inl ⟨_, _, rfl⟩)⟩
  | add => exact .inl ⟨_, rfl, .inr (.inl ⟨_, _, rfl⟩)⟩
  | sub => exact .inl ⟨_, rfl, .inr (.inl ⟨_, _, rfl⟩)⟩
  | xor => exact .inl ⟨_, rfl, .inr (.inl ⟨_, _, rfl⟩)⟩
  | aptr imm =>
    cases h : aptrSum s.params.aptrOverflow (s.x32 .ptr) imm with
    | ok v =>
      exact .inl ⟨s.setX32 .ptr v, by simp [exec, execAptr, h, Except.map, finish],
        .inr (.inr (.inl ⟨_, v, rfl⟩))⟩
    | error r =>
      obtain ⟨hge, ho, rfl⟩ := aptrSum_error h
      exact .inr ⟨_, by simp [exec, execAptr, h, Except.map, finish],
        .inr (.inl ⟨⟨imm, rfl, hge⟩, ho, rfl⟩)⟩
  | mv dst src =>
    cases h : move8 dst src s with
    | ok t =>
      refine .inl ⟨t, by simp [exec, execMv, h, finish], ?_⟩
      unfold move8 at h
      split at h
      · simp at h
      · split at h
        · simp at h
        · exact write8_body h
    | error r =>
      refine .inr ⟨r, by simp [exec, execMv, h, finish], ?_⟩
      unfold move8 at h
      split at h
      · next hn =>
        obtain ⟨rfl, rfl, rfl⟩ := notMemToMem_error hn
        exact .inr (.inr (.inr ⟨rfl, _, by simpa using h.symm⟩))
      · split at h
        · next hr =>
          obtain rfl : _ = r := by simpa using h
          rcases read8_error hr with ⟨rfl, rfl⟩ | ⟨rfl, hle, rfl⟩
          · exact .inr (.inr (.inr ⟨by simp [Instr.wf, Instr.wfMv], _, rfl⟩))
          · exact .inl ⟨.inr (.inl ⟨dst, rfl⟩), hle, rfl⟩
        · rcases write8_error h with ⟨rfl, rfl⟩ | ⟨rfl, hle, rfl⟩
          · exact .inr (.inr (.inr ⟨by simp [Instr.wf, Instr.wfMv], _, rfl⟩))
          · exact .inl ⟨.inl ⟨src, rfl⟩, hle, rfl⟩
  | mvi dst imm =>
    cases h : write8 dst imm s with
    | ok t => exact .inl ⟨t, by simp [exec, execMvi, h, finish], write8_body h⟩
    | error r =>
      refine .inr ⟨r, by simp [exec, execMvi, h, finish], ?_⟩
      rcases write8_error h with ⟨rfl, rfl⟩ | ⟨rfl, hle, rfl⟩
      · exact .inr (.inr (.inr ⟨rfl, _, rfl⟩))
      · exact .inl ⟨.inr (.inr (.inl ⟨imm, rfl⟩)), hle, rfl⟩
  | mv32 dst src =>
    cases h : move32 dst src s with
    | ok t =>
      refine .inl ⟨t, by simp [exec, execMv32, h, finish], ?_⟩
      unfold move32 at h
      split at h
      · simp at h
      · exact write32_body h
    | error r =>
      refine .inr ⟨r, by simp [exec, execMv32, h, finish], ?_⟩
      unfold move32 at h
      split at h
      · next hr =>
        obtain rfl : _ = r := by simpa using h
        obtain ⟨hi, rfl⟩ := read32_error hr
        refine .inr (.inr (.inr ⟨?_, _, rfl⟩))
        rcases hi with rfl | rfl <;> simp [Instr.wf, Instr.wfMv32, fldMem]
      · rcases write32_error h with ⟨rfl, rfl⟩ | ⟨rfl, hle, rfl⟩
        · exact .inr (.inr (.inr ⟨by simp [Instr.wf, Instr.wfMv32], _, rfl⟩))
        · exact .inl ⟨.inr (.inr (.inr (.inl ⟨src, rfl⟩))), hle, rfl⟩
  | mvi32 dst imm =>
    cases h : write32 dst imm s with
    | ok t => exact .inl ⟨t, by simp [exec, execMvi32, h, finish], write32_body h⟩
    | error r =>
      refine .inr ⟨r, by simp [exec, execMvi32, h, finish], ?_⟩
      rcases write32_error h with ⟨rfl, rfl⟩ | ⟨rfl, hle, rfl⟩
      · exact .inr (.inr (.inr ⟨rfl, _, rfl⟩))
      · exact .inl ⟨.inr (.inr (.inr (.inr ⟨imm, rfl⟩))), hle, rfl⟩

/-! ### A step by status and decode -/

theorem step_decode_error {s : State} {reason : Abort} (hs : s.status = .running)
    (h : fetchInstr s = .error reason) : step s = .next (s.raise reason) := by
  simp [step, hs, h]

theorem step_exec {s : State} {i : Instr} (hs : s.status = .running) (h : fetchInstr s = .ok i) :
    step s = exec i (s.advancePc i.len) := by
  simp [step, hs, h]

/-- Only a Running state has a next one, by a decode that fails or by a body (R95). -/
theorem step_next {s t : State} (h : step s = .next t) :
    s.status = .running ∧
      ((∃ reason, fetchInstr s = .error reason ∧ t = s.raise reason) ∨
        ∃ i, fetchInstr s = .ok i ∧ exec i (s.advancePc i.len) = .next t) := by
  unfold step at h
  split at h
  · simp at h
  · simp at h
  · next hs =>
    refine ⟨hs, ?_⟩
    split at h
    · next r hr => exact .inl ⟨r, hr, by simpa using h.symm⟩
    · next i hi => exact .inr ⟨i, hi, h⟩

end Sys2Proof.Machine
end

