-- ==== Sys2Proof/Machine/Assembler.lean ====
section
/-! DEFINITION. The assembler text of the spec (spec/30_encoding.md R87, D12) and the assembler's
refusals (R88). Text is not behaviour: no step reads any of this. The letters and the space after a
comma are those of R87's forms. -/

namespace Sys2Proof.Machine

/-- The bytes of an instruction, `none` for a term that spells an invalid byte, which an assembler
must reject (R88). -/
def assemble (i : Instr) : Option (List Byte) := if i.wf then some (encode i) else none

/-! ### Names -/

/-- An 8-bit register's name (R87). -/
def reg8Name : Reg8 → String
  | .a => "a"
  | .b => "b"
  | .c => "c"
  | .d => "d"
  | .e => "e"
  | .f => "f"

/-- A 32-bit register's name (R87). -/
def reg32Name : Reg32 → String
  | .la => "la"
  | .lb => "lb"
  | .lc => "lc"
  | .ld => "ld"
  | .ptr => "ptr"
  | .pc => "pc"

/-- The memory operand (R87). -/
def memName : String := "(ptr+c)"

/-- The text of a field in an 8-bit context; field 0 has none. -/
def text8 (i : Field) : Option String :=
  match reg8OfField i with
  | some r => some (reg8Name r)
  | none => if i = fldMem then some memName else none

/-- The text of a field in a 32-bit context; field 0 has none. -/
def text32 (i : Field) : Option String :=
  match reg32OfField i with
  | some r => some (reg32Name r)
  | none => if i = fldMem then some memName else none

/-- `MNEMONIC dst, second` where the destination has a text. -/
def twoOperandText (mnemonic : String) (dst : Option String) (second : Option String) :
    Option String :=
  match dst, second with
  | some x, some y => some (mnemonic ++ " " ++ x ++ ", " ++ y)
  | _, _ => none

/-- One line of assembler text, numbers in decimal as in the source's example; `none` for a term the
assembler must reject. -/
def asmText (i : Instr) : Option String :=
  if i.wf then
    match i with
    | .halt => some "HALT"
    | .out => some "OUT"
    | .jez target => some ("JEZ " ++ toString target.toNat)
    | .jnz target => some ("JNZ " ++ toString target.toNat)
    | .cmp => some "CMP"
    | .add => some "ADD"
    | .sub => some "SUB"
    | .xor => some "XOR"
    | .aptr imm => some ("APTR " ++ toString imm.toNat)
    | .mv dst src => twoOperandText "MV" (text8 dst) (text8 src)
    | .mvi dst imm => twoOperandText "MVI" (text8 dst) (some (toString imm.toNat))
    | .mv32 dst src => twoOperandText "MV32" (text32 dst) (text32 src)
    | .mvi32 dst imm => twoOperandText "MVI32" (text32 dst) (some (toString imm.toNat))
  else none

/-! ### Reading a line -/

/-- The value of a digit in base 10 or 16. -/
def digitValue (base : Nat) (ch : Char) : Option Nat :=
  let v :=
    if '0' ≤ ch ∧ ch ≤ '9' then ch.toNat - '0'.toNat
    else if 'a' ≤ ch ∧ ch ≤ 'f' then ch.toNat - 'a'.toNat + 10
    else if 'A' ≤ ch ∧ ch ≤ 'F' then ch.toNat - 'A'.toNat + 10
    else base
  if v < base then some v else none

/-- The value of a sequence of digits after those already read. -/
def digitsValue (base : Nat) : Nat → List Char → Option Nat
  | acc, [] => some acc
  | acc, ch :: rest =>
    match digitValue base ch with
    | some v => digitsValue base (base * acc + v) rest
    | none => none

/-- A decimal number or a `0x` hex number (R87). -/
def numberValue : List Char → Option Nat
  | [] => none
  | ['0', 'x'] => none
  | '0' :: 'x' :: ch :: rest => digitsValue 16 0 (ch :: rest)
  | ch :: rest => digitsValue 10 0 (ch :: rest)

/-- The text without the spaces in front. -/
def dropSpaces : List Char → List Char
  | ' ' :: rest => dropSpaces rest
  | text => text

/-- The text without the spaces around it. -/
def trim (text : List Char) : List Char := (dropSpaces (dropSpaces text).reverse).reverse

/-- The parts between the commas. -/
def splitCommas : List Char → List (List Char)
  | [] => [[]]
  | ',' :: rest => [] :: splitCommas rest
  | ch :: rest =>
    match splitCommas rest with
    | [] => [[ch]]
    | part :: parts => (ch :: part) :: parts

/-- The operand field of a line: the parts between commas, trimmed; none at all for an empty field. -/
def operandTexts (text : List Char) : List String :=
  match trim text with
  | [] => []
  | ch :: rest => (splitCommas (ch :: rest)).map (fun part => String.ofList (trim part))

/-- The field value whose text this is, for a context's naming of the fields. -/
def fieldOfText (name : Field → Option String) (text : String) : Option Field :=
  [1#3, 2#3, 3#3, 4#3, 5#3, 6#3, 7#3].find? (fun i => name i == some text)

/-- An 8-bit immediate. -/
def imm8OfText (text : String) : Option Byte :=
  match numberValue text.toList with
  | some n => if n < 2 ^ 8 then some (BitVec.ofNat 8 n) else none
  | none => none

/-- A 32-bit immediate or target: a number, or a label that stands for an absolute address (R87). -/
def imm32OfText (labels : List (String × Word)) (text : String) : Option Word :=
  match labels.lookup text with
  | some v => some v
  | none =>
    match numberValue text.toList with
    | some n => if n < 2 ^ 32 then some (BitVec.ofNat 32 n) else none
    | none => none

/-- The instruction of a mnemonic and its operands' texts (the forms R87 lists). -/
def instrOfTexts (labels : List (String × Word)) (mnemonic : String) (operands : List String) :
    Option Instr :=
  match mnemonic, operands with
  | "HALT", [] => some .halt
  | "OUT", [] => some .out
  | "CMP", [] => some .cmp
  | "ADD", [] => some .add
  | "SUB", [] => some .sub
  | "XOR", [] => some .xor
  | "JEZ", [t] => (imm32OfText labels t).map .jez
  | "JNZ", [t] => (imm32OfText labels t).map .jnz
  | "APTR", [i] => (imm8OfText i).map .aptr
  | "MV", [d, s] =>
    (fieldOfText text8 d).bind fun dst => (fieldOfText text8 s).map fun src => .mv dst src
  | "MVI", [d, i] =>
    (fieldOfText text8 d).bind fun dst => (imm8OfText i).map fun imm => .mvi dst imm
  | "MV32", [d, s] =>
    (fieldOfText text32 d).bind fun dst => (fieldOfText text32 s).map fun src => .mv32 dst src
  | "MVI32", [d, i] =>
    (fieldOfText text32 d).bind fun dst =>
      (imm32OfText labels i).map fun imm => .mvi32 dst imm
  | _, _ => none

/-- The text up to the first space, and the text after it. -/
def splitSpace : List Char → List Char × List Char
  | [] => ([], [])
  | ' ' :: rest => ([], rest)
  | ch :: rest => (ch :: (splitSpace rest).1, (splitSpace rest).2)

/-- The bytes of one line `MNEMONIC [operand, ...]` (R87), `none` where there is no such instruction
or it spells an invalid byte (R88). -/
def assembleLine (labels : List (String × Word)) (line : String) : Option (List Byte) :=
  let parts := splitSpace (trim line.toList)
  (instrOfTexts labels (String.ofList parts.1) (operandTexts parts.2)).bind assemble

end Sys2Proof.Machine
end

