-- ==== Sys2Proof/Tests/Slice0.lean ====
section
/-! SUPPORT. Tests whose expected results come from the spec's vectors (spec/95_test_vectors.md; the
vector's id stands before each test) or are worked by hand from an encoding, and a witness for every
statement that has hypotheses. -/

namespace Sys2Proof.Tests

open Sys2Proof.Machine

/-! ### Helpers -/

/-- The state after a load of these bytes at the default parameters. -/
def image (bytes : List Byte) : State := loadState Config.defaultParams bytes

/-- Whether an outcome is a next state with the given property. -/
def nextIs (o : Host.Outcome State Fault Refusal) (p : State → Bool) : Bool :=
  match o with
  | .next t => p t
  | .fault _ => false
  | .refused _ => false

theorem exists_of_nextIs {o : Host.Outcome State Fault Refusal} {p : State → Bool}
    (h : nextIs o p = true) : ∃ t, o = .next t ∧ p t = true := by
  cases o with
  | next t => exact ⟨t, rfl, h⟩
  | fault r => simp [nextIs] at h
  | refused r => simp [nextIs] at h

/-- Parameters under which APTR overflow aborts and the output holds one byte. -/
def strict : Config.Params := { aptrOverflow := .abort, outCap := some 1 }

/-! ### Well-formedness refuses each ill-formed form -/

theorem test_wf_mv_dst_zero : Instr.wf (.mv 0#3 1#3) = false := by decide
theorem test_wf_mv_src_zero : Instr.wf (.mv 1#3 0#3) = false := by decide
theorem test_wf_mv_memory_to_memory : Instr.wf (.mv 7#3 7#3) = false := by decide
theorem test_wf_mvi_dst_zero : Instr.wf (.mvi 0#3 9#8) = false := by decide
theorem test_wf_mv32_dst_zero : Instr.wf (.mv32 0#3 1#3) = false := by decide
theorem test_wf_mv32_src_zero : Instr.wf (.mv32 1#3 0#3) = false := by decide
theorem test_wf_mv32_src_memory : Instr.wf (.mv32 1#3 7#3) = false := by decide
theorem test_wf_mvi32_dst_zero : Instr.wf (.mvi32 0#3 9#32) = false := by decide

/-! ### Decoding, one word or more for every constructor (R78, R88, vectors D1 to D30) -/

theorem test_decode_halt : decode [0b00000001#8] = .ok (.halt, []) := by decide
theorem test_decode_out : decode [0b00000010#8] = .ok (.out, []) := by decide

theorem test_decode_jez :
    decode [0x21#8, 0x78#8, 0x56#8, 0x34#8, 0x12#8] = .ok (.jez 0x12345678#32, []) := by decide

theorem test_decode_jnz :
    decode [0x22#8, 0x04#8, 0x00#8, 0x00#8, 0x80#8, 0x01#8] = .ok (.jnz 0x80000004#32, [0x01#8]) := by
  decide

theorem test_decode_cmp : decode [0b11000001#8] = .ok (.cmp, []) := by decide
theorem test_decode_add : decode [0b11000010#8] = .ok (.add, []) := by decide
theorem test_decode_sub : decode [0b11000011#8] = .ok (.sub, []) := by decide
theorem test_decode_xor : decode [0b11000100#8] = .ok (.xor, []) := by decide
theorem test_decode_aptr : decode [0b11100001#8, 0x80#8] = .ok (.aptr 0x80#8, []) := by decide
/-- `MV b, e` is `01 010 101` (R79). -/
theorem test_decode_mv : decode [0b01010101#8] = .ok (.mv 2#3 5#3, []) := by decide
/-- `MVI (ptr+c), 0xFE` is `01 111 000` (R79). -/
theorem test_decode_mvi : decode [0b01111000#8, 0xFE#8] = .ok (.mvi 7#3 0xFE#8, []) := by decide
/-- `MV32 pc, lb` is `10 110 010` (R79). -/
theorem test_decode_mv32 : decode [0b10110010#8] = .ok (.mv32 6#3 2#3, []) := by decide
/-- `MVI32 lb, imm32` is `10 010 000`, never MV32 (C1, vector D30). -/
theorem test_decode_mvi32 :
    decode [0b10010000#8, 0x18#8, 0x00#8, 0x00#8, 0xFF#8] = .ok (.mvi32 2#3 0xFF000018#32, []) := by
  decide

/-- The bytes of R81 are no instructions (C2, C3, C4). -/
theorem test_decode_rejects :
    ∀ op ∈ [0x40#8, 0x47#8, 0x80#8, 0x87#8, 0x7F#8, 0xBF#8, 0x8F#8, 0xB7#8, 0xC0#8],
      decode [op, 0#8, 0#8, 0#8, 0#8] = .error (.unknownOpcode op) := by decide

/-- 113 opcode bytes are in the table (R78). -/
theorem test_decode_count :
    ((List.range 256).filter (fun n => (mnemonicOf (BitVec.ofNat 8 n)).isSome)).length = 113 := by
  rfl

theorem test_encode_mv : encode (.mv 7#3 3#3) = [0x7B#8] := by decide
theorem test_encode_mvi32 :
    encode (.mvi32 1#3 0x11223344#32) = [0x88#8, 0x44#8, 0x33#8, 0x22#8, 0x11#8] := by decide

/-- The host's numbering: bit 0 is bit 0 of the first byte. -/
theorem test_table_word :
    decodeTableWord 16 0x4148 = some (.mvi 1#3 0x41#8) ∧ decodeTableWord 8 0x21 = some (.jez 0#32) ∧
      decodeTableWord 40 0x1122334488 = some (.mvi32 1#3 0x11223344#32) ∧
      decodeTableWord 8 0x7F = none := by decide

theorem test_fetch_word :
    nextIs (step (State.reset.withFetchWord 16 0x4148))
      (fun t => t.r8.a == 0x41#8 && t.r32.pc == 2#32) = true := by decide

/-! ### Fetch bounds and check order -/

/-- M1 -/
theorem test_fetch_empty_memory :
    nextIs (step (image [])) (fun t => t.status == .aborted (.addressError 0)) = true := by decide

/-- M3, its second step: JEZ at 1 needs bytes 2 to 5 and `MEM_LEN` is 4. -/
theorem test_fetch_short_operand :
    nextIs (step ((image [0x49#8, 0x21#8, 0x05#8, 0x00#8]).setX32 .pc 1#32))
      (fun t => t.status == .aborted (.addressError 4)) = true := by decide

/-- M2, its second step: an invalid opcode at the last byte is a DecodeError. -/
theorem test_fetch_invalid_last_byte :
    nextIs (step ((image [0x49#8, 0x00#8]).setX32 .pc 1#32))
      (fun t => t.status == .aborted (.decodeError 1 0x00#8)) = true := by decide

/-! ### Arithmetic, logic and compare -/

/-- A1 -/
theorem test_add_wraps :
    nextIs (step (((image [0xC2#8]).setX8 .a 0xFF#8).setX8 .b 0x02#8))
      (fun t => t.r8.a == 0x01#8 && t.r8.b == 0x02#8 && t.r32.pc == 1#32) = true := by decide

/-- A13 -/
theorem test_add_keeps_flag :
    nextIs (step ((((image [0xC2#8]).setX8 .a 0x10#8).setX8 .b 0x20#8).setX8 .f 0x05#8))
      (fun t => t.r8.a == 0x30#8 && t.r8.f == 0x05#8) = true := by decide

/-- A4 -/
theorem test_sub_wraps :
    nextIs (step ((image [0xC3#8]).setX8 .b 0x01#8)) (fun t => t.r8.a == 0xFF#8) = true := by decide

/-- A5 -/
theorem test_sub_255 :
    nextIs (step ((image [0xC3#8]).setX8 .b 0xFF#8)) (fun t => t.r8.a == 0x01#8) = true := by decide

/-- A7 -/
theorem test_xor :
    nextIs (step (((image [0xC4#8]).setX8 .a 0x0A#8).setX8 .b 0x06#8))
      (fun t => t.r8.a == 0x0C#8) = true := by decide

/-- A10 -/
theorem test_cmp_differs :
    nextIs (step (((image [0xC1#8]).setX8 .a 0x03#8).setX8 .b 0x05#8))
      (fun t => t.r8.f == 0x01#8 && t.r8.a == 0x03#8) = true := by decide

/-- A11 -/
theorem test_cmp_equal :
    nextIs (step ((((image [0xC1#8]).setX8 .a 0x05#8).setX8 .b 0x05#8).setX8 .f 0x07#8))
      (fun t => t.r8.f == 0x00#8) = true := by decide

/-! ### APTR -/

/-- P-4 and P-5 -/
theorem test_aptr_overflow :
    nextIs (step ((image [0xE1#8, 0xFF#8]).setX32 .ptr 0xFFFFFF01#32))
        (fun t => t.r32.ptr == 0#32 && t.r32.pc == 2#32) = true ∧
      nextIs (step ((loadState strict [0xE1#8, 0xFF#8]).setX32 .ptr 0xFFFFFF01#32))
        (fun t => t.status == .aborted (.aptrOverflow 0xFFFFFF01#32)) = true := by decide

/-- P-6 -/
theorem test_aptr_unsigned :
    nextIs (step ((image [0xE1#8, 0x80#8]).setX32 .ptr 0x100#32))
      (fun t => t.r32.ptr == 0x180#32) = true := by decide

/-! ### Jumps -/

/-- B1 -/
theorem test_jez_taken :
    nextIs (step (image [0x21#8, 0x10#8, 0#8, 0#8, 0#8])) (fun t => t.r32.pc == 0x10#32) = true := by
  decide

/-- B2 -/
theorem test_jez_not_taken :
    nextIs (step ((image [0x21#8, 0x10#8, 0#8, 0#8, 0#8]).setX8 .f 0x01#8))
      (fun t => t.r32.pc == 5#32) = true := by decide

/-- B5 -/
theorem test_jnz_taken :
    nextIs (step ((image [0x22#8, 0xFF#8, 0xFF#8, 0xFF#8, 0xFF#8]).setX8 .f 0xFF#8))
      (fun t => t.r32.pc == 0xFFFFFFFF#32 && t.status == .running) = true := by decide

/-- B4 -/
theorem test_jnz_not_taken :
    nextIs (step (image [0x22#8, 0x04#8, 0#8, 0#8, 0#8])) (fun t => t.r32.pc == 5#32) = true := by decide

/-! ### Output and halt -/

/-- O1 -/
theorem test_out_appends :
    nextIs (step ((image [0x02#8]).setX8 .a 0x41#8))
      (fun t => t.out == [0x41#8] && t.r8.a == 0x41#8) = true := by decide

/-- O4, its second step: a full buffer of one byte. -/
theorem test_out_full :
    nextIs (step (((loadState strict [0x02#8, 0x02#8]).appendOut 0#8).setX32 .pc 1#32))
      (fun t => t.status == .aborted (.outputOverflow 1) && t.out == [0#8]) = true := by decide

/-- H1 and H2: `pc` is 1, and nothing follows. -/
theorem test_halt :
    nextIs (step (image [0x01#8])) (fun t => t.status == .halted && t.r32.pc == 1#32) = true ∧
      Host.Core.run core 2 (image [0x01#8, 0x02#8]) = .fault .noStepHalted := by
  exact ⟨by decide, rfl⟩

/-! ### Moves -/

/-- V3: the read is at the old `c`. -/
theorem test_mv_load_c :
    nextIs (step ((image [0x5F#8, 0x00#8, 0xAA#8]).setX8 .c 0x02#8))
      (fun t => t.r8.c == 0xAA#8 && t.r32.pc == 1#32) = true := by decide

/-- V8: an out-of-bounds store aborts. V7 with the same shape stores. -/
theorem test_mv_store :
    nextIs (step (((image [0x79#8]).setX8 .a 0xEE#8).setX32 .ptr 1#32))
        (fun t => t.status == .aborted (.addressError 1)) = true ∧
      nextIs (step ((((image [0x79#8, 0#8, 0#8]).setX8 .a 0xEE#8).setX8 .c 1#8).setX32 .ptr 1#32))
        (fun t => t.mem.read 2 == .ok 0xEE#8 && t.mem.read 1 == .ok 0#8) = true := by decide

/-- V18: the low byte only. -/
theorem test_mv32_stores_low_byte :
    nextIs
      (step ((((image [0xB9#8, 0#8, 0#8, 0#8]).setX32 .la 0x11223344#32).setX32 .ptr 1#32).setX8 .c 2#8))
      (fun t => t.mem.read 3 == .ok 0x44#8 && t.mem.read 2 == .ok 0#8) = true := by decide

/-- V13: the advanced `pc` is what is read. -/
theorem test_mv32_reads_advanced_pc :
    nextIs (step (image [0x8E#8])) (fun t => t.r32.la == 1#32) = true := by decide

/-- V9 -/
theorem test_mvi_flag :
    nextIs (step (image [0x70#8, 0x07#8])) (fun t => t.r8.f == 7#8 && t.r32.pc == 2#32) = true := by
  decide

/-- SM3, its second step: MVI overwrites its own opcode byte and is not affected. -/
theorem test_mvi_overwrites_itself :
    nextIs (step (((image [0x58#8, 0x02#8, 0x78#8, 0x49#8, 0x49#8]).setX8 .c 2#8).setX32 .pc 2#32))
      (fun t => t.mem.read 2 == .ok 0x49#8 && t.r32.pc == 4#32) = true := by decide

/-- V21 -/
theorem test_mvi32_pc :
    nextIs (step (image [0xB0#8, 0x78#8, 0x56#8, 0x34#8, 0x12#8]))
      (fun t => t.r32.pc == 0x12345678#32) = true := by decide

/-- V25, its second step: the low byte of the immediate. -/
theorem test_mvi32_stores_low_byte :
    nextIs (step (((image [0x58#8, 0x06#8, 0xB8#8, 0xDD#8, 0xCC#8, 0xBB#8, 0xAA#8, 0x01#8]).setX8 .c
        6#8).setX32 .pc 2#32))
      (fun t => t.mem.read 6 == .ok 0xDD#8 && t.mem.read 5 == .ok 0xBB#8) = true := by decide

/-- V24, its second step: the effective address does not wrap. -/
theorem test_ea_does_not_wrap :
    nextIs (step (((image [0x4F#8]).setX32 .ptr 0xFFFFFFFF#32).setX8 .c 1#8))
      (fun t => t.status == .aborted (.addressError 0x100000000)) = true := by decide

/-! ### Memory form and assembler text -/

/-- Writing the byte an unlisted address reads as removes the cell. -/
theorem test_write_unlisted_byte :
    (Memory.ofBytes [5#8, 6#8, 7#8]).write 1 0#8 =
      .ok { len := 3, cells := [(0, 5#8), (2, 7#8)] } := by decide

/-- S4: the source's own line of assembler text; R88's refusal; a label. -/
theorem test_assembler :
    assembleLine [] "MVI a,65" = some [0x48#8, 0x41#8] ∧
      assembleLine [] "MV (ptr+c),(ptr+c)" = none ∧ assembleLine [] "MV32 la, (ptr+c)" = none ∧
      assembleLine [("loop", 4#32)] "JNZ loop" = some [0x22#8, 4#8, 0#8, 0#8, 0#8] := by decide

theorem test_assembler_text :
    asmText (.mv32 7#3 1#3) = some "MV32 (ptr+c), la" ∧ asmText (.aptr 4#8) = some "APTR 4" ∧
      asmText (.mv 7#3 7#3) = none := by decide

/-! ### Witnesses: states and operands that meet each statement's hypotheses -/

/-- A state with memory at the effective address 2 and an instruction to store there. -/
def storing : State := (image [0x79#8, 0x01#8, 0x00#8]).setX8 .c 2#8

theorem storing_wf : storing.mem.wf := by decide

theorem witness_LoadLeavesTheStatedResetValues :
    image [7#8] = loadState Config.defaultParams [7#8] ∧ [7#8][0]? = some 7#8 := by decide

theorem witness_LoadIsAcceptedOnlyWithNoRunInProgress :
    (image []).status = .running ∧ ((image []).setStatus .halted).status ≠ .running ∧
      [7#8].length ≤ 0xFFFFFFFF ∧ 0xFFFFFFFF < (List.replicate (2 ^ 32) 7#8).length := by
  refine ⟨rfl, by decide, by decide, ?_⟩
  rw [List.length_replicate]
  decide

theorem witness_InvariantHoldsAtResetAndAfterLoad :
    firstLoad Config.defaultParams [7#8] = .next (image [7#8]) := rfl

theorem witness_EveryStepKeepsTheInvariant : storing.Inv ∧ ∃ t, step storing = .next t :=
  ⟨⟨storing_wf, by decide⟩, _, rfl⟩

theorem witness_DecodeOfEncodeIsTheInstruction : Instr.wf (.mv 7#3 6#3) = true := by decide

theorem witness_EncodeOfDecodeIsTheBytes :
    decode [0x48#8, 0x41#8, 0x02#8] = .ok (.mvi 1#3 0x41#8, [0x02#8]) := by decide

theorem witness_InvalidOpcodesRaiseDecodeError :
    (image [0x7F#8]).mem.fetch 0 = .ok 0x7F#8 ∧ (image [0x7E#8]).mem.fetch 0 = .ok 0x7E#8 := by decide

/-- One memory for each of the three opcodes. -/
theorem witness_FourByteOperandsAreLittleEndian :
    ∀ op ∈ [0x21#8, 0x22#8, 0x88#8],
      (image [op, 1#8, 2#8, 3#8, 4#8]).mem.fetch 0 = .ok op ∧
      (image [op, 1#8, 2#8, 3#8, 4#8]).mem.fetch 1 = .ok 1#8 ∧
      (image [op, 1#8, 2#8, 3#8, 4#8]).mem.fetch 2 = .ok 2#8 ∧
      (image [op, 1#8, 2#8, 3#8, 4#8]).mem.fetch 3 = .ok 3#8 ∧
      (image [op, 1#8, 2#8, 3#8, 4#8]).mem.fetch 4 = .ok 4#8 := by decide

theorem witness_FourByteOperandsAreLittleEndian_mvi32 : mnemonicOf 0x88#8 = some .mvi32 := by decide

theorem witness_DecodeDependsOnlyOnTheInstructionBytes :
    decodeAt (image [0x48#8, 0x41#8, 0x02#8]).mem 0 = .ok (.mvi 1#3 0x41#8) ∧
      ∀ k, k < 2 → (image [0x48#8, 0x41#8]).mem.fetch (0 + k) =
        (image [0x48#8, 0x41#8, 0x02#8]).mem.fetch (0 + k) := by decide

theorem witness_StepRunsTheDecodedInstruction :
    storing.status = .running ∧ storing.mem.wf ∧ Instr.wf (.mv 7#3 1#3) = true ∧
      ∀ k b, (encode (.mv 7#3 1#3))[k]? = some b →
        storing.mem.fetch ((storing.x32 .pc).toNat + k) = .ok b := by
  refine ⟨rfl, storing_wf, by decide, fun k b h => ?_⟩
  cases k with
  | zero => exact (Option.some.inj h) ▸ (by decide)
  | succ k => exact absurd h (by simp [encode])

theorem witness_StepIsExecOfWhatIsDecoded :
    storing.status = .running ∧
      decodeAt storing.mem (storing.x32 .pc).toNat = .ok (.mv 7#3 1#3) := by decide

theorem witness_PcAdvanceNeverWraps :
    storing.mem.wf ∧ decodeAt storing.mem (storing.x32 .pc).toNat = .ok (.mv 7#3 1#3) :=
  ⟨storing_wf, by decide⟩

/-- The four clauses: no opcode byte; an invalid one; a short operand; a whole instruction that ends
at the last byte. -/
theorem witness_DecodeChecksRunInTheStatedOrder :
    (image []).mem.len ≤ 0 ∧ (image [0x00#8]).mem.fetch 0 = .ok 0x00#8 ∧ mnemonicOf 0x00#8 = none ∧
      (image [0x48#8]).mem.fetch 0 = .ok 0x48#8 ∧ mnemonicOf 0x48#8 = some .mvi ∧
      (image [0x48#8]).mem.len < 0 + Mnemonic.mvi.len ∧
      0 + Mnemonic.mvi.len ≤ (image [0x48#8, 0#8]).mem.len := by decide

theorem witness_StatusMovesOnlyAsStated :
    nextIs (step (image [0x01#8])) (fun t => t.status == .halted) = true ∧
      nextIs (step (image [])) (fun t => t.status == .aborted (.addressError 0)) = true ∧
      ((image []).setStatus .halted).status = .halted ∧
      ((image []).raise (.addressError 0)).status = .aborted (.addressError 0) ∧
      load Config.defaultParams [] ((image []).setStatus .halted) = .next (image []) := by
  exact ⟨by decide, by decide, rfl, rfl, rfl⟩

theorem witness_RunningStepAlwaysAnswers : storing.status = .running := rfl

/-- A step that aborts by each cause that can occur: decode, fetch, load and store, APTR, OUT. -/
theorem witness_AbortCausesAreRaisedOnlyAsListed :
    nextIs (step (image [0x00#8])) (fun t => t.status == .aborted (.decodeError 0 0x00#8)) = true ∧
      nextIs (step (image [])) (fun t => t.status == .aborted (.addressError 0)) = true ∧
      nextIs (step (image [0x48#8])) (fun t => t.status == .aborted (.addressError 1)) = true ∧
      nextIs (step (image [0x21#8, 0#8, 0#8, 0#8]))
        (fun t => t.status == .aborted (.addressError 4)) = true ∧
      nextIs (step ((image [0x4F#8]).setX8 .c 1#8))
        (fun t => t.status == .aborted (.addressError 1)) = true ∧
      nextIs (step ((loadState strict [0xE1#8, 0xFF#8]).setX32 .ptr 0xFFFFFF01#32))
        (fun t => t.status == .aborted (.aptrOverflow 0xFFFFFF01#32)) = true ∧
      nextIs (step ((loadState strict [0x02#8]).appendOut 0#8))
        (fun t => t.status == .aborted (.outputOverflow 1)) = true := by decide

theorem witness_AbortedIsTerminal :
    ((image []).raise (.addressError 0)).status = .aborted (.addressError 0) ∧
      [7#8].length ≤ 0xFFFFFFFF := ⟨rfl, by decide⟩

theorem witness_NoOutputAfterAnAbort :
    step (image []) = .next ((image []).raise (.addressError 0)) ∧
      Reaches ((image []).raise (.addressError 0)) ((image []).raise (.addressError 0)) :=
  ⟨rfl, .refl _⟩

/-- The largest `ptr` that does not overflow with this immediate, and the first that does, under each
value of the parameter. -/
theorem witness_AptrAddsTheUnsignedImmediate :
    (((image []).setX32 .ptr 0xFFFFFF00#32).x32 .ptr).toNat + (0xFF#8).toNat < 2 ^ 32 ∧
      2 ^ 32 ≤ (((image []).setX32 .ptr 0xFFFFFF01#32).x32 .ptr).toNat + (0xFF#8).toNat ∧
      (image []).params.aptrOverflow = .wrap ∧ (loadState strict []).params.aptrOverflow = .abort := by
  decide

theorem witness_JezJumpsWhenTheFlagIsZero :
    storing.x8 .f = 0#8 ∧ (storing.setX8 .f 2#8).x8 .f ≠ 0#8 ∧ storing.status = .running ∧
      storing.mem.len ≤ (3#32).toNat := by decide

theorem witness_JnzJumpsWhenTheFlagIsNotZero :
    (storing.setX8 .f 0xFF#8).x8 .f ≠ 0#8 ∧ storing.x8 .f = 0#8 ∧ storing.status = .running ∧
      storing.mem.len ≤ (3#32).toNat := by decide

/-- A taken JEZ, and MVI32 to `pc`. -/
theorem witness_OnlyJumpsAndPcMovesTransferControl :
    (decodeAt (image [0x21#8, 9#8, 0#8, 0#8, 0#8]).mem 0 = .ok (.jez 9#32) ∧
      nextIs (step (image [0x21#8, 9#8, 0#8, 0#8, 0#8]))
        (fun t => t.status == .running && t.x32 .pc != 5#32) = true) ∧
      decodeAt (image [0xB0#8, 9#8, 0#8, 0#8, 0#8]).mem 0 = .ok (.mvi32 6#3 9#32) ∧
      nextIs (step (image [0xB0#8, 9#8, 0#8, 0#8, 0#8]))
        (fun t => t.status == .running && t.x32 .pc != 5#32) = true := by decide

theorem witness_JnzToItselfNeverEnds :
    ((image [0x22#8, 0#8, 0#8, 0#8, 0#8]).setX8 .f 1#8).status = .running ∧
      ((image [0x22#8, 0#8, 0#8, 0#8, 0#8]).setX8 .f 1#8).x8 .f ≠ 0#8 ∧
      decodeAt ((image [0x22#8, 0#8, 0#8, 0#8, 0#8]).setX8 .f 1#8).mem 0 = .ok (.jnz 0#32) := by decide

theorem witness_OutAppendsTheAccumulator :
    (image []).params.outCap ≠ some (image []).out.length ∧
      ((loadState strict []).appendOut 0#8).params.outCap =
        some ((loadState strict []).appendOut 0#8).out.length := by decide

theorem witness_HaltStopsTheEngine :
    (image [0x01#8]).status = .running ∧ (image [0x01#8]).mem.wf ∧
      (image [0x01#8]).mem.fetch ((image [0x01#8]).x32 .pc).toNat = .ok 0x01#8 := by decide

theorem witness_OnlyOutGrowsTheOutput : ∃ t, step (image [0x02#8]) = .next t := ⟨_, rfl⟩

/-- The last address of the memory, and the first beyond it. -/
theorem witness_MemoryAccessesAreCheckedAndExact :
    storing.mem.len ≤ 3 ∧ 2 < storing.mem.len ∧ storing.mem.wf := by decide

theorem witness_OperandWritesFollowTheFieldMap :
    storing.mem.wf ∧ storing.ea < storing.mem.len ∧
      (storing.setX8 .c 3#8).mem.len ≤ (storing.setX8 .c 3#8).ea := by decide

theorem witness_MvCopiesOneOperand :
    storing.mem.wf ∧ storing.ea < storing.mem.len ∧
      (storing.setX8 .c 3#8).mem.len ≤ (storing.setX8 .c 3#8).ea := by decide

theorem witness_Mv32CopiesARegisterOrStoresItsLowByte :
    storing.mem.wf ∧ storing.ea < storing.mem.len ∧
      (storing.setX32 .ptr 1#32).mem.len ≤ (storing.setX32 .ptr 1#32).ea := by decide

theorem witness_MviWritesTheImmediate :
    storing.mem.wf ∧ storing.ea < storing.mem.len ∧
      (storing.setX8 .c 0xFF#8).mem.len ≤ (storing.setX8 .c 0xFF#8).ea := by decide

theorem witness_Mvi32WritesTheImmediateOrItsLowByte :
    storing.mem.wf ∧ storing.ea < storing.mem.len ∧
      (storing.setX32 .ptr 0xFFFFFFFF#32).mem.len ≤ (storing.setX32 .ptr 0xFFFFFFFF#32).ea := by decide

theorem witness_BodiesWriteOnlyWhatIsListed :
    nextIs (exec (.mv 7#3 1#3) storing) (fun t => t.status == .running) = true ∧
      nextIs (exec .add storing) (fun t => t.status == .running) = true ∧
      nextIs (exec .halt storing) (fun t => t.status == .halted) = true ∧
      writesMemory .add = false := by decide

theorem witness_EveryStepChangesAtMostTheByteAtTheEffectiveAddress :
    nextIs (step storing) (fun t => t.status == .running) = true := by decide

/-- The store, and a run after it of one step that stores nothing. -/
theorem witness_ReadsReturnTheLastStoreOrTheLoadedByte :
    storing.mem.wf ∧
      (∃ m, storing.mem.write 2 9#8 = .ok m ∧
        ReachesWithoutStoreTo 2 (storing.setMem m) (storing.setMem m) ∧
        ∀ reason, (storing.setMem m).status ≠ .aborted reason) ∧
      [0xC2#8, 5#8][1]? = some 5#8 ∧
      ∃ u, ReachesWithoutStoreTo 1 (image [0xC2#8, 5#8]) u ∧ u.x32 .pc = 1#32 ∧
        ∀ reason, u.status ≠ .aborted reason := by
  refine ⟨storing_wf, ⟨_, rfl, .refl _, fun r => ?_⟩, rfl, ?_⟩
  · simp [storing, image, loadState, State.reset]
  obtain ⟨u, hu, hp⟩ := exists_of_nextIs
    (show nextIs (step (image [0xC2#8, 5#8])) (fun t => t.x32 .pc == 1#32 && t.status == .running) = true by
      decide)
  have hp' : u.x32 .pc = 1#32 ∧ u.status = .running := by simpa using hp
  refine ⟨u, .tail (.refl _) hu (fun i hi hw => ?_), hp'.1, fun r => by simp [hp'.2]⟩
  have hadd : decodeAt (image [0xC2#8, 5#8]).mem ((image [0xC2#8, 5#8]).x32 .pc).toNat = .ok .add := by
    decide
  obtain rfl : Instr.add = i := by simpa using hadd.symm.trans hi
  exact absurd hw (by decide)

/-- `MV (ptr+c), a` has just been fetched at 0, the next fetch is at 1, and `a` holds HALT's byte. -/
def patching : State :=
  (((image [0x79#8, 0x00#8]).setX8 .c 1#8).setX8 .a 0x01#8).setX32 .pc 1#32

theorem witness_StoresAreSeenByTheNextFetch :
    patching.status = .running ∧ patching.mem.wf ∧ patching.ea < patching.mem.len ∧
      (patching.x32 .pc).toNat = patching.ea ∧ Instr.wf .halt = true ∧
      encode .halt = [patching.x8 .a] ∧
      ∃ t, exec (.mv fldMem (fld8 .a)) patching = .next t :=
  ⟨rfl, by decide, by decide, by decide, rfl, rfl, _, rfl⟩

theorem witness_RunsKeepMemorySizeParametersAndEarlierOutput :
    ∃ t, Reaches storing t ∧ t.status = .running := by
  obtain ⟨t, ht, hp⟩ := exists_of_nextIs
    (show nextIs (step storing) (fun t => t.status == .running) = true by decide)
  exact ⟨t, .tail (.refl _) ht, by simpa using hp⟩

/-- An unbounded buffer, and a buffer of capacity 1 against another output of the same length. -/
theorem witness_OutputBufferIsNeverRead :
    (image [0x02#8]).params.outCap = none ∧
      (∃ t, Reaches (image [0x02#8]) t ∧ t.out = [0#8]) ∧
      (loadState strict [0x02#8]).params.outCap = some 1 ∧
      ([] : List Byte).length = (loadState strict [0x02#8]).out.length ∧
      ∃ t, Reaches (loadState strict [0x02#8]) t ∧ t.out = [0#8] := by
  obtain ⟨t, ht, hp⟩ := exists_of_nextIs
    (show nextIs (step (image [0x02#8])) (fun t => t.out == [0#8]) = true by decide)
  obtain ⟨u, hu, hq⟩ := exists_of_nextIs
    (show nextIs (step (loadState strict [0x02#8])) (fun t => t.out == [0#8]) = true by decide)
  exact ⟨rfl, ⟨t, .tail (.refl _) ht, by simpa using hp⟩, rfl, rfl, u, .tail (.refl _) hu,
    by simpa using hq⟩

theorem witness_AHaltingRunIsSafeAndHasOneResult : HaltsWith (image [0x01#8]) [] := by
  obtain ⟨t, ht, hp⟩ := exists_of_nextIs
    (show nextIs (step (image [0x01#8])) (fun t => t.result == some []) = true by decide)
  exact ⟨t, .tail (.refl _) ht, by simpa using hp⟩

theorem witness_WithFetchWordRunsThatInstruction :
    storing.mem.wf ∧ decodeTableWord 16 0x4148 = some (.mvi 1#3 0x41#8) := by decide

end Sys2Proof.Tests
end

section
/-! The state family (spec/10_state.md): what a load leaves, and how the status moves. -/

namespace Sys2Proof.Machine

/-! ### What a load leaves -/

/-- After reset every register reads 0 (R45). -/
@[simp] theorem State.x8_reset (r : Reg8) : State.reset.x8 r = 0#8 := by cases r <;> rfl

@[simp] theorem State.x32_reset (r : Reg32) : State.reset.x32 r = 0#32 := by cases r <;> rfl

@[simp] theorem x8_loadState (params : Config.Params) (bytes : List Byte) (r : Reg8) :
    (loadState params bytes).x8 r = 0#8 := State.x8_reset r

@[simp] theorem x32_loadState (params : Config.Params) (bytes : List Byte) (r : Reg32) :
    (loadState params bytes).x32 r = 0#32 := State.x32_reset r

/-- A loaded byte is read back at its index (R211). -/
theorem Memory.read_ofBytes {bytes : List Byte} {k : Nat} {b : Byte} (h : bytes[k]? = some b) :
    (Memory.ofBytes bytes).read k = .ok b := by
  obtain ⟨hlt, -⟩ := List.getElem?_eq_some_iff.mp h
  have hread : cellsRead (cellsOfBytes 0 bytes) k = bytes[k]?.getD unlistedByte := by
    simpa using cellsRead_cellsOfBytes 0 bytes k
  exact Memory.read_ok.mpr ⟨hlt, hread.trans (by simp [h])⟩

/-- Settles O1: each field of `loadState` is the reset's, the memory is that of the bytes. -/
theorem loadLeavesTheStatedResetValues : Obligations.LoadLeavesTheStatedResetValues := by
  rintro params bytes s rfl
  exact ⟨x8_loadState params bytes, x32_loadState params bytes, rfl,
    fun _ _ h => Memory.read_ofBytes h, rfl, rfl, rfl⟩

/-! ### What a load answers -/

/-- A first load is accepted exactly for an input that fits, and answers the reset state (R210). -/
theorem firstLoad_next {params : Config.Params} {bytes : List Byte} {t : State} :
    firstLoad params bytes = .next t ↔
      bytes.length ≤ Config.maxMemLen ∧ t = loadState params bytes := by
  unfold firstLoad
  split
  · next hlong => simp [hlong]
  · next hfits => simp [not_lt.mp hfits, eq_comm]

/-- A load is accepted exactly where no run is in progress and a first load is (R210, D16). -/
theorem load_next {params : Config.Params} {bytes : List Byte} {s t : State} :
    load params bytes s = .next t ↔ s.status ≠ .running ∧ firstLoad params bytes = .next t := by
  unfold load
  cases s.status <;> simp

/-! ### What a body does to the status -/

/-- A body other than HALT's that does not abort leaves the status. -/
theorem BodyWrites.status_eq {i : Instr} {s t : State} (h : BodyWrites i s t) (hi : i ≠ .halt) :
    t.status = s.status := by
  rcases h with rfl | ⟨r, v, rfl⟩ | ⟨r, v, rfl⟩ | ⟨v, m, -, rfl⟩ | ⟨-, -, rfl⟩ | ⟨rfl, -⟩
  · rfl
  · rfl
  · rfl
  · rfl
  · rfl
  · exact absurd rfl hi

/-- HALT's body leaves Halted; every other body leaves the status or aborts (R41, R170). -/
theorem exec_status_cases {i : Instr} {s t : State} (h : exec i s = .next t) :
    (i = .halt ∧ t.status = .halted) ∨
      (i ≠ .halt ∧ (t.status = s.status ∨ ∃ reason, t.status = .aborted reason)) := by
  by_cases hi : i = .halt
  · subst hi
    obtain rfl : s.setStatus .halted = t := by simpa [exec, execHalt] using h
    exact .inl ⟨rfl, rfl⟩
  · refine .inr ⟨hi, ?_⟩
    rcases exec_cases i s with ⟨u, hu, hw⟩ | ⟨reason, hr, -⟩
    · obtain rfl : u = t := by simpa [hu] using h
      exact .inl (hw.status_eq hi)
    · obtain rfl : s.raise reason = t := by simpa [hr] using h
      exact .inr ⟨reason, rfl⟩

/-- From a state that is not Halted, only HALT's body leaves Halted (R41). -/
theorem exec_halted_iff {i : Instr} {s t : State} (hs : s.status ≠ .halted)
    (h : exec i s = .next t) : t.status = .halted ↔ i = .halt := by
  rcases exec_status_cases h with ⟨hi, ht⟩ | ⟨hi, ht | ⟨reason, ht⟩⟩
  · simp [hi, ht]
  · simp [hi, ht, hs]
  · simp [hi, ht]

/-! ### What a step does to the status -/

/-- A step reaches Halted exactly when it decoded HALT (R41). -/
theorem step_halted_iff {s t : State} (h : step s = .next t) :
    t.status = .halted ↔ fetchInstr s = .ok .halt := by
  obtain ⟨hs, ⟨reason, hf, rfl⟩ | ⟨i, hf, hx⟩⟩ := step_next h
  · simp [hf]
  · have hrun : (s.advancePc i.len).status ≠ .halted := by simp [hs]
    simpa [hf] using exec_halted_iff hrun hx

/-- A decode that fails makes the step's abort (R41, R182). -/
theorem step_aborted_of_decode_error {s t : State} {reason : Abort} (h : step s = .next t)
    (hf : fetchInstr s = .error reason) : t.status = .aborted reason := by
  obtain rfl : s.raise reason = t := by simpa [step_decode_error (step_next h).1 hf] using h
  rfl

/-- A step that aborts does so by its decode or by the body it decoded (R41). -/
theorem step_aborted_source {s t : State} {reason : Abort} (h : step s = .next t)
    (ht : t.status = .aborted reason) :
    fetchInstr s = .error reason ∨
      ∃ i, fetchInstr s = .ok i ∧ exec i (s.advancePc i.len) = .next t := by
  obtain ⟨-, ⟨cause, hf, rfl⟩ | hbody⟩ := step_next h
  · obtain rfl : cause = reason := by simpa using ht
    exact .inl hf
  · exact .inr hbody

theorem step_of_halted {s : State} (hs : s.status = .halted) : step s = .fault .noStepHalted := by
  simp [step, hs]

theorem step_of_aborted {s : State} {reason : Abort} (hs : s.status = .aborted reason) :
    step s = .fault (.noStepAborted reason) := by
  simp [step, hs]

/-- Settles O16: the parts are the lemmas above, a step's by its decode and body, a load's by the
status it finds. -/
theorem statusMovesOnlyAsStated : Obligations.StatusMovesOnlyAsStated := by
  refine ⟨fun s t h => ?_, fun _ => step_of_halted, fun _ _ => step_of_aborted,
    fun params bytes s t h => ?_⟩
  · exact ⟨(step_next h).1, step_halted_iff h, fun _ => step_aborted_of_decode_error h,
      fun _ => step_aborted_source h⟩
  · obtain ⟨hs, hfirst⟩ := load_next.mp h
    obtain ⟨-, rfl⟩ := firstLoad_next.mp hfirst
    exact ⟨hs, rfl⟩

end Sys2Proof.Machine
end

section
/-! The memory family (spec/20_memory.md): the effective address, the checked primitives, and what a
run leaves in a byte it does not store to. -/

namespace Sys2Proof.Machine

/-! ### The effective address -/

/-- The sum of a 32-bit and an 8-bit register never exceeds `2^32 - 1 + 255` (R50). -/
theorem State.ea_le (s : State) : s.ea ≤ 2 ^ 32 - 1 + 255 := by
  have hptr : (s.x32 .ptr).toNat < 2 ^ 32 := (s.x32 .ptr).isLt
  have hc : (s.x8 .c).toNat < 2 ^ 8 := (s.x8 .c).isLt
  unfold State.ea
  omega

/-- Settles O34: the sum is the definition's, and `ptr` and `c` at all ones reach the bound. -/
theorem effectiveAddressIsTheExactSum : Obligations.EffectiveAddressIsTheExactSum :=
  ⟨fun s => ⟨rfl, s.ea_le⟩, (State.reset.setX32 .ptr 0xFFFFFFFF#32).setX8 .c 0xFF#8, by decide⟩

/-! ### The checked primitives -/

/-- Below `MEM_LEN` a data read returns (R53). -/
theorem Memory.exists_read_ok {m : Memory} {addr : Nat} (h : addr < m.len) :
    ∃ b, m.read addr = .ok b :=
  ⟨_, Memory.read_ok.mpr ⟨h, rfl⟩⟩

/-- Below `MEM_LEN` a write returns (R54). -/
theorem Memory.exists_write_ok {m : Memory} {addr : Nat} (v : Byte) (h : addr < m.len) :
    ∃ m', m.write addr v = .ok m' :=
  ⟨_, Memory.write_ok.mpr ⟨h, rfl⟩⟩

/-- Settles O35: the address check decides between the error of each primitive and its result, and
the result of a write is the one of the read-after-write laws. A fetch is a read. -/
theorem memoryAccessesAreCheckedAndExact : Obligations.MemoryAccessesAreCheckedAndExact := by
  refine fun m addr v => ⟨fun hout => ?_, fun hin => ⟨?_, fun hm => ?_⟩⟩
  · have hread : m.read addr = .error (.addressError addr) := Memory.read_error.mpr ⟨hout, rfl⟩
    exact ⟨hread, hread, Memory.write_error.mpr ⟨hout, rfl⟩⟩
  · obtain ⟨b, hb⟩ := Memory.exists_read_ok hin
    exact ⟨b, hb, hb⟩
  · obtain ⟨m', hw⟩ := Memory.exists_write_ok v hin
    have hread : m'.read addr = .ok v := Memory.read_write_same hm hw
    exact ⟨m', hw, Memory.wf_write hm hw, Memory.write_len hw, hread, hread,
      fun _ hne => Memory.read_write_other hw hne⟩

/-! ### What a body and a step do to memory -/

section
variable {s t : State}

/-- From `s` to `t` memory is kept, or one byte is written at the effective address of `s`; the
second only where `stores` holds. -/
def KeepsOrStores (stores : Prop) (s t : State) : Prop :=
  t.mem = s.mem ∨ stores ∧ ∃ v, s.mem.write s.ea v = .ok t.mem

/-- A write by field stores only for the memory operand (R141). -/
theorem write8_keepsOrStores {dst : Field} {v : Byte} (h : write8 dst v s = .ok t) :
    KeepsOrStores (dst = fldMem) s t := by
  rcases write8_ok h with ⟨r, -, rfl⟩ | ⟨hd, m, hm, rfl⟩
  · exact .inl rfl
  · exact .inr ⟨hd, v, hm⟩

theorem write32_keepsOrStores {dst : Field} {v : Word} (h : write32 dst v s = .ok t) :
    KeepsOrStores (dst = fldMem) s t := by
  rcases write32_ok h with ⟨r, -, rfl⟩ | ⟨hd, m, hm, rfl⟩
  · exact .inl rfl
  · exact .inr ⟨hd, _, hm⟩

/-- MV that does not abort ends with a write of its destination (R142). -/
theorem move8_ok {dst src : Field} (h : move8 dst src s = .ok t) : ∃ v, write8 dst v s = .ok t := by
  unfold move8 at h
  split at h
  · simp at h
  · split at h
    · simp at h
    · exact ⟨_, h⟩

/-- MV32 that does not abort ends with a write of its destination (R144). -/
theorem move32_ok {dst src : Field} (h : move32 dst src s = .ok t) :
    ∃ v, write32 dst v s = .ok t := by
  unfold move32 at h
  split at h
  · simp at h
  · exact ⟨_, h⟩

/-- A body that raises keeps memory (R184), so what holds of its result holds of its end. -/
theorem finish_keepsOrStores {stores : Prop} {result : Except Abort State}
    (h : finish s result = .next t) (hok : result = .ok t → KeepsOrStores stores s t) :
    KeepsOrStores stores s t := by
  rcases finish_next.mp h with ht | ⟨r, -, rfl⟩
  · exact hok ht
  · exact .inl rfl

/-- A body stores only for a memory destination, and then at the effective address (R29, R60). -/
theorem exec_keepsOrStores {i : Instr} (h : exec i s = .next t) :
    KeepsOrStores (writesMemory i = true) s t := by
  cases i with
  | halt | add | sub | xor | cmp => cases h; exact .inl rfl
  | jez target | jnz target => cases h; left; split <;> rfl
  | out =>
    refine finish_keepsOrStores h fun hok => ?_
    split at hok <;> cases hok
    exact .inl rfl
  | aptr imm =>
    refine finish_keepsOrStores h fun hok => ?_
    cases hsum : aptrSum s.params.aptrOverflow (s.x32 .ptr) imm with
    | error r => simp [hsum, Except.map] at hok
    | ok v =>
      obtain rfl : s.setX32 .ptr v = t := by simpa [hsum, Except.map] using hok
      exact .inl rfl
  | mv dst src =>
    refine finish_keepsOrStores h fun hok => ?_
    obtain ⟨v, hw⟩ := move8_ok hok
    simpa [writesMemory, fldMem] using write8_keepsOrStores hw
  | mvi dst imm =>
    refine finish_keepsOrStores h fun hok => ?_
    simpa [writesMemory, fldMem] using write8_keepsOrStores hok
  | mv32 dst src =>
    refine finish_keepsOrStores h fun hok => ?_
    obtain ⟨v, hw⟩ := move32_ok hok
    simpa [writesMemory, fldMem] using write32_keepsOrStores hw
  | mvi32 dst imm =>
    refine finish_keepsOrStores h fun hok => ?_
    simpa [writesMemory, fldMem] using write32_keepsOrStores hok

/-- A step stores only where it decodes an instruction with a memory destination. -/
theorem step_keepsOrStores (h : step s = .next t) :
    KeepsOrStores (∃ i, fetchInstr s = .ok i ∧ writesMemory i = true) s t := by
  obtain ⟨-, ⟨reason, -, rfl⟩ | ⟨i, hf, hx⟩⟩ := step_next h
  · exact .inl rfl
  · rcases exec_keepsOrStores hx with hkeep | ⟨hw, v, hm⟩
    · exact .inl hkeep
    · exact .inr ⟨⟨i, hf, hw⟩, v, by simpa using hm⟩

end

/-! ### A byte along a run -/

/-- A byte that no step of a run stores to reads at the end as at the start (R64). -/
theorem read_eq_of_reachesWithoutStoreTo {k : Nat} {s u : State} (h : ReachesWithoutStoreTo k s u) :
    u.mem.read k = s.mem.read k := by
  induction h with
  | refl => rfl
  | tail _ hstep hfree ih =>
    rcases step_keepsOrStores hstep with hkeep | ⟨⟨i, hf, hw⟩, v, hm⟩
    · rw [hkeep, ih]
    · rw [Memory.read_write_other hm (hfree i hf hw).symm, ih]

/-- Settles O44: the store, or the load, fixes what byte `k` reads at the start of the run, and the
run keeps it; a fetch is a read. That the last state is not Aborted is not needed, since the model's
aborts keep memory. -/
theorem readsReturnTheLastStoreOrTheLoadedByte :
    Obligations.ReadsReturnTheLastStoreOrTheLoadedByte := by
  constructor
  · intro s u k v m hm hw hrun _
    have hread : u.mem.read k = .ok v :=
      (read_eq_of_reachesWithoutStoreTo hrun).trans (Memory.read_write_same hm hw)
    exact ⟨hread, hread⟩
  · intro params bytes k v u hb hrun _
    have hread : u.mem.read k = .ok v :=
      (read_eq_of_reachesWithoutStoreTo hrun).trans (Memory.read_ofBytes hb)
    exact ⟨hread, hread⟩

end Sys2Proof.Machine
end

section
/-! The encoding family (spec/30_encoding.md): the opcode table against the source's, the bytes it
leaves out, the four-byte operand, and the step of the instruction whose encoding stands at `pc`. -/

namespace Sys2Proof

/-! ### The opcode table by byte value -/

/-- Settles O8: the two tables are compared at each of the 256 bytes. -/
theorem decoderAgreesWithTheSourceTable : Obligations.DecoderAgreesWithTheSourceTable := by
  unfold Obligations.DecoderAgreesWithTheSourceTable
  decide

/-- A table that opens with a row for `P` has no row exactly outside `P` and where the rest has none. -/
theorem ite_some_eq_none_iff {α : Type} {P : Prop} [Decidable P] {row : α} {rest : Option α} :
    (if P then some row else rest) = none ↔ ¬ P ∧ rest = none := by
  split_ifs with h <;> simp [h]

/-- The byte values that the rows of the source's table leave out are those of R80. -/
theorem sourceTable_eq_none_iff {n : Nat} (hn : n < 256) : sourceTable n = none ↔ invalidOpcode n := by
  simp only [sourceTable, invalidOpcode, ite_some_eq_none_iff, and_true]
  omega

/-- The decoder's table has no row for exactly the bytes of R80. -/
theorem mnemonicOf_eq_none_iff (op : Byte) : mnemonicOf op = none ↔ invalidOpcode op.toNat := by
  rw [← sourceTable_eq_none_iff op.isLt, ← decoderAgreesWithTheSourceTable op, Option.map_eq_none_iff]

/-! ### The opcode bytes of the moves -/

theorem mnemonicOf_moveOpcode_mv {d s : Field} (h : Instr.wfMv d s = true) :
    mnemonicOf (moveOpcode 0x40#8 d s) = some .mv := by
  revert d s; decide

theorem mnemonicOf_moveOpcode_mvi {d : Field} (h : d ≠ 0#3) :
    mnemonicOf (moveOpcode 0x40#8 d 0#3) = some .mvi := by
  revert d; decide

theorem mnemonicOf_moveOpcode_mv32 {d s : Field} (h : Instr.wfMv32 d s = true) :
    mnemonicOf (moveOpcode 0x80#8 d s) = some .mv32 := by
  revert d s; decide

theorem mnemonicOf_moveOpcode_mvi32 {d : Field} (h : d ≠ 0#3) :
    mnemonicOf (moveOpcode 0x80#8 d 0#3) = some .mvi32 := by
  revert d; decide

/-! ### The four-byte operand -/

/-- A byte appended below a word: the word moves up by 8 bits. -/
theorem toNat_append_byte {w : Nat} (x : BitVec w) (b : Byte) :
    (x ++ b).toNat = 2 ^ 8 * x.toNat + b.toNat := by
  rw [BitVec.toNat_append, ← Nat.shiftLeft_add_eq_or_of_lt b.isLt, Nat.shiftLeft_eq, Nat.mul_comm]

/-- The operand's value, lowest byte first (R14, R74). -/
theorem le32_toNat (b0 b1 b2 b3 : Byte) :
    (le32 b0 b1 b2 b3).toNat =
      b0.toNat + 2 ^ 8 * b1.toNat + 2 ^ 16 * b2.toNat + 2 ^ 24 * b3.toNat := by
  have h : (le32 b0 b1 b2 b3).toNat =
      2 ^ 8 * (2 ^ 8 * (2 ^ 8 * b3.toNat + b2.toNat) + b1.toNat) + b0.toNat := by
    simp only [← toNat_append_byte]
    rfl
  omega

/-! ### Decoding an encoding -/

section
variable {ε : Type} {unknown : Byte → ε} {fetch : Nat → Except ε Byte}

/-- Where the bytes after the opcode are an operand's, the operand is fetched (R74, R88). -/
theorem fetchImm32_operandBytes {v : Word}
    (h : ∀ k b, (operandBytes v)[k]? = some b → fetch (k + 1) = .ok b) :
    fetchImm32 fetch = .ok v :=
  fetchImm32_ok.mpr ⟨_, _, _, _, h 0 _ rfl, h 1 _ rfl, h 2 _ rfl, h 3 _ rfl, le32_byteOf v⟩

/-- Where the bytes fetched are the encoding of a well-formed instruction, they decode to it. -/
theorem decodeWith_encode {i : Instr} (hi : i.wf = true)
    (h : ∀ k b, (encode i)[k]? = some b → fetch k = .ok b) : decodeWith unknown fetch = .ok i := by
  have imm32 : ∀ {op : Byte} {v : Word} {f : Word → Instr}, encode i = op :: operandBytes v →
      f v = i → (fetchImm32 fetch).map f = .ok i := fun henc hf =>
    except_map_ok.mpr ⟨_, fetchImm32_operandBytes fun k b hb => h (k + 1) b (by simpa [henc]), hf⟩
  refine decodeWith_ok.mpr ?_
  cases i with
  | halt | out | cmp | add | sub | xor => exact ⟨_, _, h 0 _ rfl, rfl, rfl⟩
  | aptr imm => exact ⟨_, .aptr, h 0 _ rfl, rfl, except_map_ok.mpr ⟨imm, h 1 _ rfl, rfl⟩⟩
  | jez target | jnz target => exact ⟨_, _, h 0 _ rfl, rfl, imm32 rfl rfl⟩
  | mv dst src =>
    exact ⟨_, _, h 0 _ rfl, mnemonicOf_moveOpcode_mv hi, by simp [decodeOperands]⟩
  | mv32 dst src =>
    exact ⟨_, _, h 0 _ rfl, mnemonicOf_moveOpcode_mv32 hi, by simp [decodeOperands]⟩
  | mvi dst imm =>
    exact ⟨_, _, h 0 _ rfl, mnemonicOf_moveOpcode_mvi (by simpa [Instr.wf] using hi),
      except_map_ok.mpr ⟨imm, h 1 _ rfl, by simp⟩⟩
  | mvi32 dst imm =>
    exact ⟨_, _, h 0 _ rfl, mnemonicOf_moveOpcode_mvi32 (by simpa [Instr.wf] using hi),
      imm32 rfl (by simp)⟩

end

end Sys2Proof

namespace Sys2Proof.Machine

/-! ### Decoding over memory -/

section
variable {m : Memory} {p : Nat} {op : Byte}

/-- A fetched opcode in the table leaves its operands to decode (R85). -/
theorem decodeAt_of_mnemonic {mn : Mnemonic} (h0 : m.fetch p = .ok op)
    (hmn : mnemonicOf op = some mn) :
    decodeAt m p = decodeOperands mn op (fun k => m.fetch (p + k)) := by
  simp [decodeAt, decodeWith, h0, hmn]

/-- A fetched opcode raises DecodeError exactly when the table has no row for it: an operand byte
that cannot be fetched is an AddressError (R85, R186). -/
theorem decodeAt_decodeError_iff (h0 : m.fetch p = .ok op) :
    decodeAt m p = .error (.decodeError p op) ↔ mnemonicOf op = none := by
  constructor
  · intro h
    rcases decodeWith_error h with hop | ⟨op', hop, hnone, -⟩ | ⟨-, -, k, -, -, -, -, hk, -⟩
    · simp [h0] at hop
    · obtain rfl : op = op' := by simpa [h0] using hop
      exact hnone
    · obtain ⟨-, hr⟩ := Memory.read_error.mp hk
      simp at hr
  · intro hnone
    simp [decodeAt, decodeWith, h0, hnone]

/-- An instruction that decodes ends at or below `MEM_LEN`, since its last byte was fetched (R33). -/
theorem add_len_le_of_decodeAt {i : Instr} (h : decodeAt m p = .ok i) : p + i.len ≤ m.len := by
  have hpos : 0 < i.len := by have := len_cases i; omega
  obtain ⟨b, hb⟩ := decodeWith_fetched h (Nat.sub_lt hpos Nat.one_pos)
  obtain ⟨hlt, -⟩ := Memory.read_ok.mp hb
  omega

end

/-- Settles O9: DecodeError is raised for the bytes outside the table, which are R80's. -/
theorem invalidOpcodesRaiseDecodeError : Obligations.InvalidOpcodesRaiseDecodeError := by
  intro m p op h0
  rw [decodeAt_decodeError_iff h0, mnemonicOf_eq_none_iff]

/-- Settles O10: the operand fetched is `le32` of the four bytes, for each of the mnemonics. -/
theorem fourByteOperandsAreLittleEndian : Obligations.FourByteOperandsAreLittleEndian := by
  intro m p op b0 b1 b2 b3 h0 h1 h2 h3 h4
  have himm : fetchImm32 (fun k => m.fetch (p + k)) = .ok (le32 b0 b1 b2 b3) :=
    fetchImm32_ok.mpr ⟨b0, b1, b2, b3, h1, h2, h3, h4, rfl⟩
  refine ⟨le32 b0 b1 b2 b3, le32_toNat b0 b1 b2 b3, ?_, ?_, fun hmn => ?_⟩
  · rintro rfl
    exact (decodeAt_of_mnemonic h0 rfl).trans (except_map_ok.mpr ⟨_, himm, rfl⟩)
  · rintro rfl
    exact (decodeAt_of_mnemonic h0 rfl).trans (except_map_ok.mpr ⟨_, himm, rfl⟩)
  · exact (decodeAt_of_mnemonic h0 hmn).trans (except_map_ok.mpr ⟨_, himm, rfl⟩)

/-! ### The `pc` advance -/

/-- The advance changes `pc` and nothing else (R96). -/
theorem unchangedBut_advancePc (s : State) (n : Nat) : UnchangedBut [] [.pc] s (s.advancePc n) := by
  refine ⟨fun _ _ => rfl, fun r hr => ?_, ⟨rfl, fun _ => rfl⟩, rfl, rfl, rfl⟩
  simp [List.mem_singleton.not.mp hr]

/-- An advance that stays in the address range does not wrap (R33). -/
theorem toNat_advancePc {s : State} {n : Nat} (h : (s.x32 .pc).toNat + n ≤ Config.maxMemLen) :
    ((s.advancePc n).x32 .pc).toNat = (s.x32 .pc).toNat + n := by
  have hlt : (s.x32 .pc).toNat + n < 2 ^ 32 := Nat.lt_succ_of_le h
  simp only [State.x32_advancePc, if_true, BitVec.toNat_add, BitVec.toNat_ofNat]
  omega

/-- Settles O12: the encoding at `pc` decodes to the instruction, so the step is its body after the
advance, which memory's bound keeps from wrapping. -/
theorem stepRunsTheDecodedInstruction : Obligations.StepRunsTheDecodedInstruction := by
  intro s i hs hm hi hbytes
  have hd : fetchInstr s = .ok i := decodeWith_encode hi hbytes
  obtain ⟨-, -, hlen⟩ := Memory.wf_iff.mp hm
  exact ⟨s.advancePc i.len, step_exec hs hd,
    toNat_advancePc ((add_len_le_of_decodeAt hd).trans hlen), unchangedBut_advancePc s i.len⟩

end Sys2Proof.Machine
end

section
/-! The arithmetic family (spec/40_arith.md): the frame of a write of one register, the bodies of ADD,
SUB, XOR and CMP, and the sum of APTR with both of its overflow behaviours. -/

namespace Sys2Proof.Machine

/-! ### The frame of a register write -/

/-- A write of an 8-bit register changes nothing else (R24, R27). -/
theorem unchangedBut_setX8 (s : State) (r : Reg8) (v : Byte) : UnchangedBut [r] [] s (s.setX8 r v) := by
  refine ⟨fun q hq => ?_, fun _ _ => rfl, ⟨rfl, fun _ => rfl⟩, rfl, rfl, rfl⟩
  simp [List.mem_singleton.not.mp hq]

/-- A write of a 32-bit register changes nothing else (R24, R27). -/
theorem unchangedBut_setX32 (s : State) (r : Reg32) (v : Word) :
    UnchangedBut [] [r] s (s.setX32 r v) := by
  refine ⟨fun _ _ => rfl, fun q hq => ?_, ⟨rfl, fun _ => rfl⟩, rfl, rfl, rfl⟩
  simp [List.mem_singleton.not.mp hq]

/-! ### The bodies that write one 8-bit register -/

theorem exec_add (s : State) : exec .add s = .next (s.setX8 .a (s.x8 .a + s.x8 .b)) := rfl

theorem exec_sub (s : State) : exec .sub s = .next (s.setX8 .a (s.x8 .a - s.x8 .b)) := rfl

theorem exec_xor (s : State) : exec .xor s = .next (s.setX8 .a (s.x8 .a ^^^ s.x8 .b)) := rfl

theorem exec_cmp (s : State) : exec .cmp s = .next (s.setX8 .f (cmpFlag (s.x8 .a) (s.x8 .b))) := rfl

/-- Settles O21: the sum of two bytes is the sum of their values modulo 256. -/
theorem addWritesTheSumModulo256 : Obligations.AddWritesTheSumModulo256 := by
  refine ⟨rfl, fun s => ⟨_, exec_add s, ?_, unchangedBut_setX8 s .a _⟩⟩
  simp [BitVec.toNat_add]

/-- Settles O22: the difference of two bytes is that of their values modulo 256, where the 256 is
added first so that it is not negative. -/
theorem subWritesTheDifferenceModulo256 : Obligations.SubWritesTheDifferenceModulo256 := by
  refine ⟨rfl, fun s => ⟨_, exec_sub s, ?_, unchangedBut_setX8 s .a _⟩⟩
  have hb : (s.x8 .b).toNat < 2 ^ 8 := (s.x8 .b).isLt
  simp only [State.x8_setX8, if_true, BitVec.toNat_sub]
  omega

/-- Settles O23: the exclusive or of two bytes is that of their bits. -/
theorem xorWritesTheExclusiveOr : Obligations.XorWritesTheExclusiveOr := by
  refine ⟨rfl, fun s => ⟨_, exec_xor s, fun k _ => ?_, unchangedBut_setX8 s .a _⟩⟩
  simp [BitVec.getLsbD_xor]

@[simp] theorem cmpFlag_self (x : Byte) : cmpFlag x x = 0#8 := by simp [cmpFlag]

theorem cmpFlag_of_ne {x y : Byte} (h : x ≠ y) : cmpFlag x y = 1#8 := if_pos h

/-- Settles O24: `f` takes the flag of the comparison, which is 0 on equal bytes and 1 on others. -/
theorem cmpWritesInequalityToTheFlag : Obligations.CmpWritesInequalityToTheFlag := by
  refine ⟨rfl, fun s => ⟨_, exec_cmp s, fun heq => ?_, fun hne => ?_, unchangedBut_setX8 s .f _⟩⟩
  · simp [heq]
  · simp [cmpFlag_of_ne hne]

/-! ### APTR -/

section
variable {o : Config.AptrOverflow} {p : Word} {imm : Byte} {s : State}

/-- A sum that fits, and under wrap every sum, is the 32-bit word of the sum of naturals (R104). -/
theorem aptrSum_ok (h : p.toNat + imm.toNat < 2 ^ 32 ∨ o = .wrap) :
    aptrSum o p imm = .ok (BitVec.ofNat 32 (p.toNat + imm.toNat)) := by
  by_cases hfits : p.toNat + imm.toNat < 2 ^ 32
  · exact if_pos hfits
  · obtain rfl : o = .wrap := h.resolve_left hfits
    have hmod (n : Nat) : BitVec.ofNat 32 (n % 2 ^ 32) = BitVec.ofNat 32 n := by
      simp [BitVec.toNat_eq]
    simp only [aptrSum, if_neg hfits, hmod]

/-- A sum that does not fit is refused under abort, with `ptr` as it was (R104, D5). -/
theorem aptrSum_overflow (h : 2 ^ 32 ≤ p.toNat + imm.toNat) :
    aptrSum .abort p imm = .error (.aptrOverflow p) :=
  if_neg (not_lt.mpr h)

/-- APTR writes the sum modulo `2^32` to `ptr` unless it is to abort on overflow (R104). -/
theorem exec_aptr_sum
    (h : (s.x32 .ptr).toNat + imm.toNat < 2 ^ 32 ∨ s.params.aptrOverflow = .wrap) :
    ∃ t, exec (.aptr imm) s = .next t ∧
      (t.x32 .ptr).toNat = ((s.x32 .ptr).toNat + imm.toNat) % 2 ^ 32 ∧
      UnchangedBut [] [.ptr] s t := by
  have hexec : exec (.aptr imm) s =
      .next (s.setX32 .ptr (BitVec.ofNat 32 ((s.x32 .ptr).toNat + imm.toNat))) :=
    finish_next.mpr (.inl (except_map_ok.mpr ⟨_, aptrSum_ok h, rfl⟩))
  exact ⟨_, hexec, by simp, unchangedBut_setX32 s .ptr _⟩

/-- APTR that overflows under abort raises AptrOverflow (R104, D5). -/
theorem exec_aptr_overflow (h : 2 ^ 32 ≤ (s.x32 .ptr).toNat + imm.toNat)
    (habort : s.params.aptrOverflow = .abort) :
    exec (.aptr imm) s = .next (s.raise (.aptrOverflow (s.x32 .ptr))) :=
  finish_next.mpr (.inr ⟨_, except_map_error.mpr (habort ▸ aptrSum_overflow h), rfl⟩)

end

/-- Settles O25: a sum that fits is its own remainder modulo `2^32`, which wrap writes in every case,
and abort raises on a sum that does not. -/
theorem aptrAddsTheUnsignedImmediate : Obligations.AptrAddsTheUnsignedImmediate := by
  refine fun imm s => ⟨rfl, fun hfits => ?_, fun _ hwrap => exec_aptr_sum (.inr hwrap),
    fun hover habort => ⟨_, exec_aptr_overflow hover habort, rfl, rfl⟩⟩
  obtain ⟨t, ht, hsum, hframe⟩ := exec_aptr_sum (.inl hfits)
  exact ⟨t, ht, hsum.trans (Nat.mod_eq_of_lt hfits), hframe⟩

end Sys2Proof.Machine
end

section
/-! The branch family (spec/41_branch.md): the state a taken jump leaves, with the fetch beyond
`MEM_LEN` that follows a target out of range, and the bodies of JEZ and JNZ by the flag. -/

namespace Sys2Proof.Machine

/-! ### A fetch beyond the memory -/

/-- At or beyond `MEM_LEN` the opcode fetch raises AddressError, before any table lookup (R55, R186). -/
theorem decodeAt_of_len_le {m : Memory} {p : Nat} (h : m.len ≤ p) :
    decodeAt m p = .error (.addressError p) := by
  have hfetch : m.fetch p = .error (.addressError p) := Memory.read_error.mpr ⟨h, rfl⟩
  simp [decodeAt, decodeWith, hfetch]

/-- A Running state whose `pc` is at or beyond `MEM_LEN` aborts at its next step (R55, R120). -/
theorem step_of_len_le_pc {s : State} (hs : s.status = .running)
    (h : s.mem.len ≤ (s.x32 .pc).toNat) :
    step s = .next (s.raise (.addressError (s.x32 .pc).toNat)) :=
  step_decode_error hs (decodeAt_of_len_le h)

/-! ### The two outcomes of a jump -/

section
variable (target : Word) (s : State)

theorem unchangedBut_refl : UnchangedBut [] [] s s :=
  ⟨fun _ _ => rfl, fun _ _ => rfl, ⟨rfl, fun _ => rfl⟩, rfl, rfl, rfl⟩

/-- The write of `pc` is all of a taken jump: the target is checked by the fetch after it (R120). -/
theorem jumpsTo_setX32_pc : JumpsTo target s (s.setX32 .pc target) := by
  have hpc : (s.setX32 .pc target).x32 .pc = target := by simp
  refine ⟨hpc, unchangedBut_setX32 s .pc target, fun hs hle => ?_⟩
  have hstep := step_of_len_le_pc (s := s.setX32 .pc target) hs (hpc.symm ▸ hle)
  rw [hpc] at hstep
  exact ⟨_, hstep, rfl, rfl⟩

variable {target s}

theorem exec_jez_taken (h : s.x8 .f = 0#8) : exec (.jez target) s = .next (s.setX32 .pc target) := by
  simp [exec, execJez, jumpIf, State.flagZero, h]

theorem exec_jez_not_taken (h : s.x8 .f ≠ 0#8) : exec (.jez target) s = .next s := by
  simp [exec, execJez, jumpIf, State.flagZero, h]

theorem exec_jnz_taken (h : s.x8 .f ≠ 0#8) : exec (.jnz target) s = .next (s.setX32 .pc target) := by
  simp [exec, execJnz, jumpIf, State.flagZero, h]

theorem exec_jnz_not_taken (h : s.x8 .f = 0#8) : exec (.jnz target) s = .next s := by
  simp [exec, execJnz, jumpIf, State.flagZero, h]

end

/-- Settles O26: JEZ writes `pc` on a zero flag and leaves the state on any other. -/
theorem jezJumpsWhenTheFlagIsZero : Obligations.JezJumpsWhenTheFlagIsZero := fun target s =>
  ⟨rfl, fun hzero => ⟨_, exec_jez_taken hzero, jumpsTo_setX32_pc target s⟩,
    fun hne => ⟨_, exec_jez_not_taken hne, unchangedBut_refl s⟩⟩

/-- Settles O27: JNZ writes `pc` on any flag but zero and leaves the state on zero. -/
theorem jnzJumpsWhenTheFlagIsNotZero : Obligations.JnzJumpsWhenTheFlagIsNotZero := fun target s =>
  ⟨rfl, fun hne => ⟨_, exec_jnz_taken hne, jumpsTo_setX32_pc target s⟩,
    fun hzero => ⟨_, exec_jnz_not_taken hzero, unchangedBut_refl s⟩⟩

end Sys2Proof.Machine
end

section
/-! The output family (spec/42_output.md): the two outcomes of OUT, and the output of a run once a
step has aborted. -/

namespace Sys2Proof.Machine

/-! ### The body of OUT -/

section
variable {s : State}

/-- The buffer is full exactly when it holds the capacity's number of bytes (R130). -/
theorem outFull_iff : outFull s = true ↔ s.params.outCap = some s.out.length := beq_iff_eq

theorem exec_out_append (h : s.params.outCap ≠ some s.out.length) :
    exec .out s = .next (s.appendOut (s.x8 .a)) :=
  finish_next.mpr (.inl (if_neg (outFull_iff.not.mpr h)))

theorem exec_out_full (h : s.params.outCap = some s.out.length) :
    exec .out s = .next (s.raise (.outputOverflow s.out.length)) :=
  finish_next.mpr (.inr ⟨_, if_pos (outFull_iff.mpr h), rfl⟩)

end

/-- Settles O30: the fullness test decides between the append, which touches the output alone, and
the abort, which keeps it. -/
theorem outAppendsTheAccumulator : Obligations.OutAppendsTheAccumulator :=
  ⟨rfl, fun _ =>
    ⟨fun hroom => ⟨_, exec_out_append hroom, rfl, fun _ _ => rfl, fun _ _ => rfl,
        ⟨rfl, fun _ => rfl⟩, rfl, rfl⟩,
      fun hfull => ⟨_, exec_out_full hfull, rfl, rfl⟩⟩⟩

/-! ### The output after an abort -/

/-- A body that takes a Running state to Aborted has raised: none of its effect is kept (R95, R184). -/
theorem exec_aborted {i : Instr} {s t : State} {reason : Abort} (hs : s.status = .running)
    (h : exec i s = .next t) (ht : t.status = .aborted reason) :
    t = s.raise reason ∧ BodyAborts i s reason := by
  rcases exec_cases i s with ⟨u, hu, hw⟩ | ⟨cause, hr, hcause⟩
  · obtain rfl : u = t := by simpa [hu] using h
    by_cases hi : i = .halt
    · have hhalted : u.status = .halted := (exec_halted_iff (by simp [hs]) h).mpr hi
      simp [hhalted] at ht
    · simp [hw.status_eq hi, hs] at ht
  · obtain rfl : s.raise cause = t := by simpa [hr] using h
    obtain rfl : cause = reason := by simpa using ht
    exact ⟨rfl, hcause⟩

/-- The step that aborts leaves the output as it was, whether its decode or its body raised (R132). -/
theorem step_aborted_out {s t : State} {reason : Abort} (h : step s = .next t)
    (ht : t.status = .aborted reason) : t.out = s.out := by
  obtain ⟨hs, ⟨cause, -, rfl⟩ | ⟨i, -, hx⟩⟩ := step_next h
  · rfl
  · obtain ⟨rfl, -⟩ := exec_aborted (s := s.advancePc i.len) hs hx ht
    rfl

/-- A run that starts where there is no step stays there. -/
theorem eq_of_reaches_of_no_step {s t : State} (hstop : ∀ u, step s ≠ .next u) (h : Reaches s t) :
    t = s := by
  induction h with
  | refl => rfl
  | tail _ hstep ih => exact absurd (ih ▸ hstep) (hstop _)

/-- Aborted is terminal (R183). -/
theorem eq_of_reaches_of_aborted {s t : State} {reason : Abort} (hs : s.status = .aborted reason)
    (h : Reaches s t) : t = s :=
  eq_of_reaches_of_no_step (fun u => by simp [step_of_aborted hs]) h

/-- Settles O20: the aborting step keeps the output, and no step follows it. -/
theorem noOutputAfterAnAbort : Obligations.NoOutputAfterAnAbort := by
  intro s t u reason hstep ht hreach
  obtain rfl := eq_of_reaches_of_aborted ht hreach
  exact step_aborted_out hstep ht

end Sys2Proof.Machine
end

section
/-! The move family (spec/43_move.md): the operand reads and writes by field, and the bodies of MV, MV32,
MVI and MVI32, each a `finish` of one operand write. -/

namespace Sys2Proof.Machine

/-! ### Operand reads by field -/

section
variable (s : State)

/-- Field value 0 names no operand of any context (R26, R140, R141). -/
theorem read8_zero : read8 0#3 s = .error (.semanticError 0#3) := rfl

theorem read32_zero : read32 0#3 s = .error (.semanticError 0#3) := rfl

theorem write8_zero (v : Byte) : write8 0#3 v s = .error (.semanticError 0#3) := rfl

theorem write32_zero (w : Word) : write32 0#3 w s = .error (.semanticError 0#3) := rfl

/-- The 32-bit context has no memory source (R140). -/
theorem read32_mem : read32 fldMem s = .error (.semanticError fldMem) := rfl

end

/-- Settles O36: `fld8` and `fld32` are the field map, so the reads are those of the registers by name,
of the memory operand and of the fields without an operand. -/
theorem operandReadsFollowTheFieldMap : Obligations.OperandReadsFollowTheFieldMap := fun s =>
  ⟨⟨read8_reg s .a, read8_reg s .b, read8_reg s .c, read8_reg s .d, read8_reg s .e, read8_reg s .f,
      read8_mem s, read8_zero s⟩,
    ⟨read32_reg s .la, read32_reg s .lb, read32_reg s .lc, read32_reg s .ld, read32_reg s .ptr,
      read32_reg s .pc, read32_zero s, read32_mem s⟩⟩

/-! ### Operand writes by field -/

section
variable {s : State} {v : Byte} {w : Word}

/-- The low byte of a 32-bit value is the value modulo 256 (R57). -/
theorem byteOf_zero_eq_ofNat (w : Word) : byteOf w 0 = BitVec.ofNat 8 (w.toNat % 256) := by
  simp [byteOf_zero, BitVec.toNat_eq]

/-- A write of a register operand writes that register only (R141). -/
theorem write8_reg_writes (s : State) (r : Reg8) (v : Byte) :
    ∃ t, write8 (fld8 r) v s = .ok t ∧ t.x8 r = v ∧ UnchangedBut [r] [] s t :=
  ⟨_, write8_reg s r v, by simp, unchangedBut_setX8 s r v⟩

theorem write32_reg_writes (s : State) (r : Reg32) (w : Word) :
    ∃ t, write32 (fld32 r) w s = .ok t ∧ t.x32 r = w ∧ UnchangedBut [] [r] s t :=
  ⟨_, write32_reg s r w, by simp, unchangedBut_setX32 s r w⟩

/-- The memory a write returns holds the byte written, and nothing else of the state differs (R54). -/
theorem storesByte_setMem {k : Nat} {m : Memory} (hm : s.mem.wf) (h : s.mem.write k v = .ok m) :
    StoresByte k v s (s.setMem m) :=
  ⟨fun _ _ => rfl, fun _ _ => rfl, Memory.read_write_same hm h,
    ⟨Memory.write_len h, fun _ hne => Memory.read_write_other h hne⟩, rfl, rfl, rfl⟩

/-- Below `MEM_LEN` a write of the memory operand stores the byte at the effective address (R141). -/
theorem write8_mem_stores (v : Byte) (hm : s.mem.wf) (h : s.ea < s.mem.len) :
    ∃ t, write8 fldMem v s = .ok t ∧ StoresByte s.ea v s t := by
  obtain ⟨m, hw⟩ := Memory.exists_write_ok v h
  exact ⟨s.setMem m, (write8_mem s v).trans (writeMem_ok.mpr ⟨m, hw, rfl⟩), storesByte_setMem hm hw⟩

/-- At or beyond `MEM_LEN` it aborts (R54, R141). -/
theorem write8_mem_error (v : Byte) (h : s.mem.len ≤ s.ea) :
    write8 fldMem v s = .error (.addressError s.ea) :=
  (write8_mem s v).trans (writeMem_error.mpr ⟨h, rfl⟩)

/-- A 32-bit write of the memory operand is the 8-bit write of the low byte (R57, R141). -/
theorem write32_mem_eq_write8 (s : State) (w : Word) :
    write32 fldMem w s = write8 fldMem (BitVec.ofNat 8 (w.toNat % 256)) s := by
  rw [write32_mem, write8_mem, byteOf_zero_eq_ofNat]

theorem write32_mem_stores (w : Word) (hm : s.mem.wf) (h : s.ea < s.mem.len) :
    ∃ t, write32 fldMem w s = .ok t ∧ StoresByte s.ea (BitVec.ofNat 8 (w.toNat % 256)) s t :=
  write32_mem_eq_write8 s w ▸ write8_mem_stores _ hm h

theorem write32_mem_error (w : Word) (h : s.mem.len ≤ s.ea) :
    write32 fldMem w s = .error (.addressError s.ea) :=
  write32_mem_eq_write8 s w ▸ write8_mem_error _ h

end

/-- Settles O37: the pairs listed are those of `fld8` and `fld32`, and field value 7 is the memory
operand's, so each clause is one of the writes above. -/
theorem operandWritesFollowTheFieldMap : Obligations.OperandWritesFollowTheFieldMap := by
  intro s v w
  have hmap8 : ∀ p ∈ [(1#3, Reg8.a), (2#3, .b), (3#3, .c), (4#3, .d), (5#3, .e), (6#3, .f)],
      p.1 = fld8 p.2 := by decide
  have hmap32 : ∀ p ∈ [(1#3, Reg32.la), (2#3, .lb), (3#3, .lc), (4#3, .ld), (5#3, .ptr), (6#3, .pc)],
      p.1 = fld32 p.2 := by decide
  refine ⟨fun i r hi => ?_, fun i r hi => ?_,
    fun hm hin => ⟨write8_mem_stores v hm hin, write32_mem_stores w hm hin⟩,
    fun hout => ⟨write8_mem_error v hout, write32_mem_error w hout⟩, write8_zero s v, write32_zero s w⟩
  · obtain rfl : i = fld8 r := hmap8 _ hi
    exact write8_reg_writes s r v
  · obtain rfl : i = fld32 r := hmap32 _ hi
    exact write32_reg_writes s r w

/-! ### The move bodies -/

/-- The opcode byte of a move is the sum of its class base and its fields' places (R71, R88). -/
theorem moveOpcode_eq_ofNat {cls : Byte} (h : cls ∈ [0x40#8, 0x80#8]) (dst src : Field) :
    moveOpcode cls dst src = BitVec.ofNat 8 (cls.toNat + 8 * dst.toNat + src.toNat) := by
  have hall : ∀ cls ∈ [0x40#8, 0x80#8], ∀ dst src : Field,
      moveOpcode cls dst src = BitVec.ofNat 8 (cls.toNat + 8 * dst.toNat + src.toNat) := by decide
  exact hall cls h dst src

section
variable {s : State} {result : Except Abort State}

/-- What a body's computation makes is the state after the body (R95). -/
theorem finish_of_ok {P : State → Prop} (h : ∃ t, result = .ok t ∧ P t) :
    ∃ t, finish s result = .next t ∧ P t := by
  obtain ⟨t, ht, hP⟩ := h
  exact ⟨t, finish_next.mpr (.inl ht), hP⟩

/-- What a body's computation raises is the abort the body ends in (R182, R184). -/
theorem finish_of_error {reason : Abort} (h : result = .error reason) :
    ∃ t, finish s result = .next t ∧ AbortedFrom reason s t :=
  ⟨_, finish_next.mpr (.inr ⟨reason, h, rfl⟩), rfl, rfl⟩

/-- A MV from a register is the write of the register's value (R142). -/
theorem move8_reg_src (dst : Field) (r : Reg8) (s : State) :
    move8 dst (fld8 r) s = write8 dst (s.x8 r) s := by simp [move8]

/-- A load is the write of the byte at the effective address of the state before (R51, R142). -/
theorem move8_load {r : Reg8} {v : Byte} (h : s.mem.read s.ea = .ok v) :
    move8 (fld8 r) fldMem s = write8 (fld8 r) v s := by simp [move8, h]

/-- A load aborts as its read does (R142). -/
theorem move8_load_error {r : Reg8} {reason : Abort} (h : s.mem.read s.ea = .error reason) :
    move8 (fld8 r) fldMem s = .error reason := by simp [move8, h]

/-- A MV32 is the write of its source register's value (R144). -/
theorem move32_reg_src (dst : Field) (r : Reg32) (s : State) :
    move32 dst (fld32 r) s = write32 dst (s.x32 r) s := by simp [move32]

end

/-- Settles O38: a MV from a register is the write of its value, and a load is decided by its read. -/
theorem mvCopiesOneOperand : Obligations.MvCopiesOneOperand := by
  refine ⟨fun dst src => congrArg (fun op => [op]) (moveOpcode_eq_ofNat (by decide) dst src),
    fun s rd rs => ?_, fun s rd hin => ?_, fun s rs hm hin => ?_, fun s r hout => ⟨?_, ?_⟩, by decide⟩
  · exact finish_of_ok (move8_reg_src (fld8 rd) rs s ▸ write8_reg_writes s rd _)
  · obtain ⟨v, hv⟩ := Memory.exists_read_ok hin
    obtain ⟨t, ht, hrd, hframe⟩ := finish_of_ok (s := s) (move8_load hv ▸ write8_reg_writes s rd v)
    exact ⟨t, v, ht, hv, hrd, hframe⟩
  · exact finish_of_ok (move8_reg_src fldMem rs s ▸ write8_mem_stores _ hm hin)
  · exact finish_of_error (move8_load_error (Memory.read_error.mpr ⟨hout, rfl⟩))
  · exact finish_of_error ((move8_reg_src fldMem r s).trans (write8_mem_error _ hout))

/-- Settles O39: a MV32 is the write of its source register's value. -/
theorem mv32CopiesARegisterOrStoresItsLowByte :
    Obligations.Mv32CopiesARegisterOrStoresItsLowByte := by
  refine ⟨fun dst src => congrArg (fun op => [op]) (moveOpcode_eq_ofNat (by decide) dst src),
    fun s rd rs => ?_, fun s rs hm hin => ?_, fun s rs hout => ?_, by decide⟩
  · exact finish_of_ok (move32_reg_src (fld32 rd) rs s ▸ write32_reg_writes s rd _)
  · exact finish_of_ok (move32_reg_src fldMem rs s ▸ write32_mem_stores _ hm hin)
  · exact finish_of_error ((move32_reg_src fldMem rs s).trans (write32_mem_error _ hout))

/-- Settles O40: the body of MVI is the write of its immediate. -/
theorem mviWritesTheImmediate : Obligations.MviWritesTheImmediate :=
  ⟨fun dst imm => congrArg (fun op => [op, imm]) (moveOpcode_eq_ofNat (by decide) dst 0#3),
    fun s rd imm => finish_of_ok (write8_reg_writes s rd imm),
    fun _ imm hm hin => finish_of_ok (write8_mem_stores imm hm hin),
    fun _ imm hout => finish_of_error (write8_mem_error imm hout)⟩

/-- Settles O41: the body of MVI32 is the write of its immediate. -/
theorem mvi32WritesTheImmediateOrItsLowByte : Obligations.Mvi32WritesTheImmediateOrItsLowByte :=
  ⟨fun dst imm => congrArg (· :: operandBytes imm) (moveOpcode_eq_ofNat (by decide) dst 0#3),
    fun s rd imm => finish_of_ok (write32_reg_writes s rd imm),
    fun _ imm hm hin => finish_of_ok (write32_mem_stores imm hm hin),
    fun _ imm hout => finish_of_error (write32_mem_error imm hout)⟩

end Sys2Proof.Machine
end

section
/-! The halt family (spec/44_halt.md): the body of HALT and the step of a HALT byte at `pc`. -/

namespace Sys2Proof.Machine

theorem exec_halt (s : State) : exec .halt s = .next (s.setStatus .halted) := rfl

/-- The one byte 01 is HALT's encoding, so where it is fetched HALT decodes (R170). -/
theorem fetchInstr_halt {s : State} (h : s.mem.fetch (s.x32 .pc).toNat = .ok 0x01#8) :
    fetchInstr s = .ok .halt :=
  decodeAt_of_mnemonic h rfl

/-- A HALT byte at `pc` halts the state with `pc` advanced (R170, R171). -/
theorem step_halt {s : State} (hs : s.status = .running)
    (h : s.mem.fetch (s.x32 .pc).toNat = .ok 0x01#8) :
    step s = .next ((s.advancePc 1).setStatus .halted) :=
  (step_exec hs (fetchInstr_halt h)).trans (exec_halt _)

/-- Settles O31: the body writes the status alone, so the step ends with `pc` as the advance left it.
HALT is one byte, which memory holds, so the advance reaches `MEM_LEN` at most and does not wrap. -/
theorem haltStopsTheEngine : Obligations.HaltStopsTheEngine := by
  refine ⟨rfl, fun s => ⟨_, exec_halt s, rfl, fun _ _ => rfl, fun _ _ => rfl,
    ⟨rfl, fun _ => rfl⟩, rfl, rfl⟩, fun s hs hm hfetch => ?_⟩
  obtain ⟨-, -, hlen⟩ := Memory.wf_iff.mp hm
  have hend : (s.x32 .pc).toNat + 1 ≤ s.mem.len := add_len_le_of_decodeAt (fetchInstr_halt hfetch)
  exact ⟨_, step_halt hs hfetch, rfl, toNat_advancePc (hend.trans hlen), rfl, step_of_halted rfl⟩

end Sys2Proof.Machine
end

section
/-! The exceptions family (spec/60_exceptions.md): what decodes is well formed, how a decode over memory
fails, the causes a step raises, that Aborted is terminal, and a run that never ends. -/

namespace Sys2Proof

/-! ### What decodes is well formed -/

/-- The table gives MV no field 0 and not the memory operand twice (R78, R81). -/
theorem wfMv_of_mnemonicOf {op : Byte} (h : mnemonicOf op = some .mv) :
    Instr.wfMv (dstField op) (srcField op) = true := by
  revert op; decide

/-- The table gives MV32 no field 0 and no memory source (R78, R81). -/
theorem wfMv32_of_mnemonicOf {op : Byte} (h : mnemonicOf op = some .mv32) :
    Instr.wfMv32 (dstField op) (srcField op) = true := by
  revert op; decide

/-- The table gives no move of an immediate the destination 0 (R78). -/
theorem dstField_ne_zero {op : Byte}
    (h : mnemonicOf op = some .mvi ∨ mnemonicOf op = some .mvi32) : dstField op ≠ 0#3 := by
  revert op; decide

/-- The instruction of a table row is one the table spells: its fields are those of an opcode byte
that has a row (R78, R84). -/
theorem wf_of_decodeOperands {ε : Type} {fetch : Nat → Except ε Byte} {mn : Mnemonic} {op : Byte}
    {i : Instr} (hmn : mnemonicOf op = some mn) (h : decodeOperands mn op fetch = .ok i) :
    i.wf = true := by
  cases mn with
  | halt | out | cmp | add | sub | xor => cases h; rfl
  | jez | jnz | aptr =>
    obtain ⟨v, -, rfl⟩ := except_map_ok.mp h
    rfl
  | mv =>
    cases h
    exact wfMv_of_mnemonicOf hmn
  | mv32 =>
    cases h
    exact wfMv32_of_mnemonicOf hmn
  | mvi =>
    obtain ⟨v, -, rfl⟩ := except_map_ok.mp h
    simpa [Instr.wf] using dstField_ne_zero (.inl hmn)
  | mvi32 =>
    obtain ⟨v, -, rfl⟩ := except_map_ok.mp h
    simpa [Instr.wf] using dstField_ne_zero (.inr hmn)

end Sys2Proof

namespace Sys2Proof.Machine

theorem wf_of_decodeAt {m : Memory} {p : Nat} {i : Instr} (h : decodeAt m p = .ok i) :
    i.wf = true := by
  obtain ⟨op, mn, -, hmn, ho⟩ := decodeWith_ok.mp h
  exact wf_of_decodeOperands hmn ho

/-! ### How a decode over memory fails -/

/-- A decode fails with DecodeError for an opcode byte absent from the table, or with AddressError at
a byte of the instruction at or beyond `MEM_LEN` (R85, R180). -/
theorem decodeAt_error {m : Memory} {p : Nat} {reason : Abort} (h : decodeAt m p = .error reason) :
    (∃ op, reason = .decodeError p op ∧ m.fetch p = .ok op ∧ mnemonicOf op = none) ∨
      ∃ addr, reason = .addressError addr ∧ m.len ≤ addr ∧ IsInstructionByte m p addr := by
  rcases decodeWith_error h with hop | ⟨op, hop, hnone, hr⟩ | ⟨op, mn, k, hop, hmn, -, hlt, hk, -⟩
  · obtain ⟨hle, hr⟩ := Memory.read_error.mp hop
    exact .inr ⟨p, hr, hle, .inl rfl⟩
  · exact .inl ⟨op, hr, hop, hnone⟩
  · obtain ⟨hle, hr⟩ := Memory.read_error.mp hk
    exact .inr ⟨p + k, hr, hle, .inr ⟨op, mn, k, hop, hmn, hlt, rfl⟩⟩

/-! ### The causes a body raises -/

section
variable {i : Instr} {s : State}

/-- The check that fails reads nothing of `pc`, so it fails alike before the advance. -/
theorem bodyAborts_advancePc {n : Nat} {reason : Abort} :
    BodyAborts i (s.advancePc n) reason ↔ BodyAborts i s reason := by
  simp [BodyAborts, outFull]

theorem not_bodyAborts_decodeError {addr : Nat} {op : Byte} :
    ¬ BodyAborts i s (.decodeError addr op) := by
  simp [BodyAborts]

theorem bodyAborts_addressError {addr : Nat} :
    BodyAborts i s (.addressError addr) ↔ NamesMemory i ∧ s.mem.len ≤ s.ea ∧ addr = s.ea := by
  simp [BodyAborts]

/-- SemanticError is kept for the terms no byte spells (R26, R180). -/
theorem not_bodyAborts_semanticError (hi : i.wf = true) {field : Field} :
    ¬ BodyAborts i s (.semanticError field) := by
  simp [BodyAborts, hi]

theorem bodyAborts_aptrOverflow {v : Word} :
    BodyAborts i s (.aptrOverflow v) ↔
      s.params.aptrOverflow = .abort ∧ v = s.x32 .ptr ∧
        ∃ imm : Byte, i = .aptr imm ∧ 2 ^ 32 ≤ v.toNat + imm.toNat := by
  constructor
  · intro h
    obtain ⟨⟨imm, hi, hge⟩, habort, rfl⟩ :
        (∃ imm : Byte, i = .aptr imm ∧ 2 ^ 32 ≤ (s.x32 .ptr).toNat + imm.toNat) ∧
          s.params.aptrOverflow = .abort ∧ v = s.x32 .ptr := by simpa [BodyAborts] using h
    exact ⟨habort, rfl, imm, hi, hge⟩
  · rintro ⟨habort, rfl, hover⟩
    exact .inr (.inl ⟨hover, habort, rfl⟩)

theorem bodyAborts_outputOverflow {n : Nat} :
    BodyAborts i s (.outputOverflow n) ↔
      s.params.outCap = some n ∧ n = s.out.length ∧ i = .out := by
  constructor
  · intro h
    obtain ⟨hi, hfull, rfl⟩ : i = .out ∧ outFull s = true ∧ n = s.out.length := by
      simpa [BodyAborts] using h
    exact ⟨outFull_iff.mp hfull, rfl, hi⟩
  · rintro ⟨hcap, rfl, hi⟩
    exact .inr (.inr (.inl ⟨hi, outFull_iff.mpr hcap, rfl⟩))

theorem wfMv_comm (dst src : Field) : Instr.wfMv dst src = Instr.wfMv src dst := by
  revert dst src; decide

/-- The operand of a well-formed MV beside the memory operand is a register (R78). -/
theorem exists_fld8_of_wfMv {src : Field} (h : Instr.wfMv fldMem src = true) :
    ∃ r, src = fld8 r := by
  rcases field_cases8 src with rfl | hreg | rfl
  · simp [Instr.wfMv] at h
  · exact hreg
  · simp [Instr.wfMv, fldMem] at h

/-- A well-formed MV32 has a register source (R78). -/
theorem exists_fld32_of_wfMv32 {dst src : Field} (h : Instr.wfMv32 dst src = true) :
    ∃ r, src = fld32 r := by
  rcases field_cases32 src with rfl | hreg | rfl
  · simp [Instr.wfMv32] at h
  · exact hreg
  · simp [Instr.wfMv32, fldMem] at h

/-- A move whose memory operand lies at or beyond `MEM_LEN` raises AddressError there (R142 to R147). -/
theorem exec_namesMemory_raises (hi : i.wf = true) (hmem : NamesMemory i) (h : s.mem.len ≤ s.ea) :
    exec i s = .next (s.raise (.addressError s.ea)) := by
  rcases hmem with ⟨src, rfl⟩ | ⟨dst, rfl⟩ | ⟨imm, rfl⟩ | ⟨src, rfl⟩ | ⟨imm, rfl⟩
  · obtain ⟨r, rfl⟩ := exists_fld8_of_wfMv hi
    exact finish_next.mpr (.inr ⟨_, (move8_reg_src fldMem r s).trans (write8_mem_error _ h), rfl⟩)
  · obtain ⟨r, rfl⟩ := exists_fld8_of_wfMv ((wfMv_comm fldMem dst).trans hi)
    exact finish_next.mpr (.inr ⟨_, move8_load_error (Memory.read_error.mpr ⟨h, rfl⟩), rfl⟩)
  · exact finish_next.mpr (.inr ⟨_, write8_mem_error imm h, rfl⟩)
  · obtain ⟨r, rfl⟩ := exists_fld32_of_wfMv32 hi
    exact finish_next.mpr (.inr ⟨_, (move32_reg_src fldMem r s).trans (write32_mem_error _ h), rfl⟩)
  · exact finish_next.mpr (.inr ⟨_, write32_mem_error imm h, rfl⟩)

/-- The converse of `exec_cases` for a well-formed instruction: a check that fails is raised. -/
theorem exec_raises {reason : Abort} (hi : i.wf = true) (h : BodyAborts i s reason) :
    exec i s = .next (s.raise reason) := by
  rcases h with ⟨hmem, hle, rfl⟩ | ⟨⟨imm, rfl, hge⟩, habort, rfl⟩ | ⟨rfl, hfull, rfl⟩ | ⟨hwf, -⟩
  · exact exec_namesMemory_raises hi hmem hle
  · exact exec_aptr_overflow hge habort
  · exact exec_out_full (outFull_iff.mp hfull)
  · simp [hi] at hwf

end

/-! ### The causes a step raises -/

section
variable {s t : State} {p : Nat} (hp : p = (s.x32 .pc).toNat) (h : step s = .next t)
include hp h

/-- A step aborts exactly by the decode that fails, or by the check that fails in the body of what
decoded (R182, R186). -/
theorem step_aborted_iff {reason : Abort} :
    t.status = .aborted reason ↔
      decodeAt s.mem p = .error reason ∨
        ∃ i, decodeAt s.mem p = .ok i ∧ BodyAborts i s reason := by
  subst hp
  have hs : s.status = .running := (step_next h).1
  constructor
  · intro ht
    rcases step_aborted_source h ht with hf | ⟨i, hf, hx⟩
    · exact .inl hf
    · obtain ⟨-, hbody⟩ := exec_aborted (s := s.advancePc i.len) hs hx ht
      exact .inr ⟨i, hf, bodyAborts_advancePc.mp hbody⟩
  · rintro (hf | ⟨i, hf, hbody⟩)
    · exact step_aborted_of_decode_error h hf
    · have hstep : step s = .next ((s.advancePc i.len).raise reason) :=
        (step_exec hs hf).trans (exec_raises (wf_of_decodeAt hf) (bodyAborts_advancePc.mpr hbody))
      obtain rfl : (s.advancePc i.len).raise reason = t := by simpa [hstep] using h
      rfl

theorem step_decodeError_iff {addr : Nat} {op : Byte} :
    t.status = .aborted (.decodeError addr op) ↔
      decodeAt s.mem p = .error (.decodeError p op) ∧
        addr = p ∧ s.mem.fetch p = .ok op ∧ mnemonicOf op = none := by
  simp only [step_aborted_iff hp h, not_bodyAborts_decodeError, and_false, exists_false, or_false]
  constructor
  · intro hd
    rcases decodeAt_error hd with ⟨op', hr, hop, hnone⟩ | ⟨a, hr, -⟩
    · cases hr
      exact ⟨hd, rfl, hop, hnone⟩
    · cases hr
  · rintro ⟨hd, rfl, -⟩
    exact hd

theorem step_addressError_iff {addr : Nat} :
    t.status = .aborted (.addressError addr) ↔
      s.mem.len ≤ addr ∧
        (decodeAt s.mem p = .error (.addressError addr) ∧ IsInstructionByte s.mem p addr ∨
          addr = s.ea ∧ ∃ i, decodeAt s.mem p = .ok i ∧ NamesMemory i) := by
  simp only [step_aborted_iff hp h, bodyAborts_addressError]
  constructor
  · rintro (hd | ⟨i, hd, hmem, hle, rfl⟩)
    · rcases decodeAt_error hd with ⟨op, hr, -⟩ | ⟨a, hr, hle, hbyte⟩
      · cases hr
      · cases hr
        exact ⟨hle, .inl ⟨hd, hbyte⟩⟩
    · exact ⟨hle, .inr ⟨rfl, i, hd, hmem⟩⟩
  · rintro ⟨hle, ⟨hd, -⟩ | ⟨rfl, i, hd, hmem⟩⟩
    · exact .inl hd
    · exact .inr ⟨i, hd, hmem, hle, rfl⟩

/-- The causes that decode does not raise are those of the body. -/
theorem step_aborted_iff_body {reason : Abort} (hdec : ∀ addr op, reason ≠ .decodeError addr op)
    (haddr : ∀ addr, reason ≠ .addressError addr) :
    t.status = .aborted reason ↔ ∃ i, decodeAt s.mem p = .ok i ∧ BodyAborts i s reason := by
  rw [step_aborted_iff hp h, or_iff_right]
  intro hd
  rcases decodeAt_error hd with ⟨op, hr, -⟩ | ⟨a, hr, -⟩
  · exact hdec _ _ hr
  · exact haddr _ hr

theorem step_ne_semanticError {field : Field} : t.status ≠ .aborted (.semanticError field) := by
  rw [Ne, step_aborted_iff_body (reason := .semanticError field) hp h (by simp) (by simp)]
  rintro ⟨i, hd, hbody⟩
  exact not_bodyAborts_semanticError (wf_of_decodeAt hd) hbody

theorem step_aptrOverflow_iff {v : Word} :
    t.status = .aborted (.aptrOverflow v) ↔
      s.params.aptrOverflow = .abort ∧ v = s.x32 .ptr ∧
        ∃ imm : Byte, decodeAt s.mem p = .ok (.aptr imm) ∧ 2 ^ 32 ≤ v.toNat + imm.toNat := by
  simp only [step_aborted_iff_body (reason := .aptrOverflow v) hp h (by simp) (by simp),
    bodyAborts_aptrOverflow]
  constructor
  · rintro ⟨i, hd, habort, hv, imm, rfl, hge⟩
    exact ⟨habort, hv, imm, hd, hge⟩
  · rintro ⟨habort, hv, imm, hd, hge⟩
    exact ⟨_, hd, habort, hv, imm, rfl, hge⟩

theorem step_outputOverflow_iff {n : Nat} :
    t.status = .aborted (.outputOverflow n) ↔
      s.params.outCap = some n ∧ n = s.out.length ∧ decodeAt s.mem p = .ok .out := by
  simp only [step_aborted_iff_body (reason := .outputOverflow n) hp h (by simp) (by simp),
    bodyAborts_outputOverflow]
  constructor
  · rintro ⟨i, hd, hcap, hn, rfl⟩
    exact ⟨hcap, hn, hd⟩
  · rintro ⟨hcap, hn, hd⟩
    exact ⟨_, hd, hcap, hn, rfl⟩

/-- APTR wraps and the buffer is unbounded under the default parameters, which leaves the two causes
of a fetch or a data access (R180). -/
theorem step_aborted_default (hparams : s.params = Config.defaultParams) {reason : Abort}
    (ht : t.status = .aborted reason) :
    (∃ addr op, reason = .decodeError addr op) ∨ ∃ addr, reason = .addressError addr := by
  cases reason with
  | decodeError addr op => exact .inl ⟨addr, op, rfl⟩
  | addressError addr => exact .inr ⟨addr, rfl⟩
  | semanticError field => exact absurd ht (step_ne_semanticError hp h)
  | aptrOverflow v =>
    obtain ⟨habort, -⟩ := (step_aptrOverflow_iff hp h).mp ht
    simp [hparams, Config.defaultParams] at habort
  | outputOverflow n =>
    obtain ⟨hcap, -⟩ := (step_outputOverflow_iff hp h).mp ht
    simp [hparams, Config.defaultParams] at hcap

end

/-- Settles O18: a step aborts by its decode or by its body, and each names the cause it raises. -/
theorem abortCausesAreRaisedOnlyAsListed : Obligations.AbortCausesAreRaisedOnlyAsListed :=
  fun _ _ _ hp h =>
    ⟨fun _ _ => step_decodeError_iff hp h, fun _ => step_addressError_iff hp h,
      fun _ => step_ne_semanticError hp h, fun _ => step_aptrOverflow_iff hp h,
      fun _ => step_outputOverflow_iff hp h, fun hparams _ => step_aborted_default hp h hparams⟩

/-! ### Aborted is terminal -/

/-- Settles O19: Aborted has no step, so a run from it stays, and it is no run in progress, so a load
that fits is accepted. -/
theorem abortedIsTerminal : Obligations.AbortedIsTerminal := by
  refine fun s reason hs => ⟨fun t => eq_of_reaches_of_aborted hs, fun params bytes hfits => ?_⟩
  have hidle : s.status ≠ .running := by simp [hs]
  exact load_next.mpr ⟨hidle, firstLoad_next.mpr ⟨hfits, rfl⟩⟩

/-! ### A run that never ends -/

/-- A state that steps to itself is where every run from it stands. -/
theorem run_of_step_eq_self {M : Host.Core} {s : M.State} (h : M.step s = .next s) (k : Nat) :
    M.run k s = .next s := by
  induction k with
  | zero => rfl
  | succ k ih => simp [Host.Core.run, h, ih]

/-- A taken jump to the instruction's own address undoes the advance. -/
theorem setX32_pc_advancePc (s : State) (n : Nat) :
    (s.advancePc n).setX32 .pc (s.x32 .pc) = s := rfl

/-- Settles O29: the jump is taken and writes back the `pc` before the advance, so the step gives the
state it started from. -/
theorem jnzToItselfNeverEnds : Obligations.JnzToItselfNeverEnds := by
  intro s hs hf hd
  have hstep : step s = .next s := by
    rw [step_exec hs hd, exec_jnz_taken (by simpa using hf), setX32_pc_advancePc]
  exact run_of_step_eq_self (M := core) hstep

end Sys2Proof.Machine
end

section
/-! The host interface family (spec/70_reset_and_hazards.md): when a load is accepted, and when it is
refused. -/

namespace Sys2Proof.Machine

/-! ### The status and the length decide a load -/

/-- An input that fits resets the machine (R210, R211). -/
theorem firstLoad_of_fits {params : Config.Params} {bytes : List Byte}
    (h : bytes.length ≤ Config.maxMemLen) :
    firstLoad params bytes = .next (loadState params bytes) :=
  firstLoad_next.mpr ⟨h, rfl⟩

/-- An input longer than the largest memory is refused (R210, D3). -/
theorem firstLoad_of_tooLong {params : Config.Params} {bytes : List Byte}
    (h : Config.maxMemLen < bytes.length) : firstLoad params bytes = .refused .loadTooLong :=
  if_pos h

/-- A run in progress refuses every load (R210, D16). -/
theorem load_of_running {params : Config.Params} {bytes : List Byte} {s : State}
    (hs : s.status = .running) : load params bytes s = .refused .loadWhileRunning := by
  simp [load, hs]

/-- With no run in progress a load is a first load: nothing of the state before it counts (R210). -/
theorem load_eq_firstLoad {params : Config.Params} {bytes : List Byte} {s : State}
    (hs : s.status ≠ .running) : load params bytes s = firstLoad params bytes := by
  unfold load
  split
  · next hrun => exact absurd hrun hs
  · rfl
  · rfl

/-- Settles O2: a run in progress refuses; otherwise a load is a first load, which the length of the
input decides. -/
theorem loadIsAcceptedOnlyWithNoRunInProgress :
    Obligations.LoadIsAcceptedOnlyWithNoRunInProgress :=
  fun _ _ _ =>
    ⟨load_of_running, fun hs hfits => (load_eq_firstLoad hs).trans (firstLoad_of_fits hfits),
      fun hs hlong => (load_eq_firstLoad hs).trans (firstLoad_of_tooLong hlong),
      firstLoad_of_fits, firstLoad_of_tooLong⟩

end Sys2Proof.Machine
end

section
/-! The other part of the encoding family (spec/30_encoding.md sections 3 to 7): what decodes is what its
encoding spells, from which both round trips and the decoder's independence of other bytes follow. -/

namespace Sys2Proof

/-! ### A list of bytes read by index -/

section
variable {ε : Type} {fetch : Nat → Except ε Byte}

/-- `fetch` reads the bytes of a list at their indices. -/
def Spells (fetch : Nat → Except ε Byte) (bytes : List Byte) : Prop :=
  ∀ k b, bytes[k]? = some b → fetch k = .ok b

@[simp] theorem spells_nil : Spells fetch [] := fun _ _ h => nomatch h

@[simp] theorem spells_cons {b : Byte} {rest : List Byte} :
    Spells fetch (b :: rest) ↔ fetch 0 = .ok b ∧ Spells (fun k => fetch (k + 1)) rest := by
  constructor
  · exact fun h => ⟨h 0 b rfl, fun k c hc => h (k + 1) c hc⟩
  · rintro ⟨h0, hrest⟩ (_ | k) c hc
    · cases hc
      exact h0
    · exact hrest k c hc

/-- What spells a list spells its beginnings. -/
theorem Spells.of_prefix {front bytes : List Byte} (h : Spells fetch bytes) (hpre : front <+: bytes) :
    Spells fetch front := by
  obtain ⟨tail, rfl⟩ := hpre
  intro k b hb
  obtain ⟨hk, -⟩ := List.getElem?_eq_some_iff.mp hb
  exact h k b (by rwa [List.getElem?_append_left hk])

theorem byteAt_ok {bytes : List Byte} {k : Nat} {b : Byte} :
    byteAt bytes k = .ok b ↔ bytes[k]? = some b := by
  unfold byteAt
  cases bytes[k]? <;> simp

/-- A list spells exactly its beginnings. -/
theorem spells_byteAt_iff {bytes front : List Byte} : Spells (byteAt bytes) front ↔ front <+: bytes := by
  simp only [Spells, byteAt_ok, List.prefix_iff_getElem?]
  constructor
  · exact fun h k hk => h k _ (List.getElem?_eq_getElem hk)
  · intro h k b hb
    obtain ⟨hk, rfl⟩ := List.getElem?_eq_some_iff.mp hb
    exact h k hk

end

/-! ### The encoder puts together what the decoder takes apart -/

/-- An encoding has as many bytes as the length table gives the mnemonic (R70, R83). -/
@[simp] theorem length_encode (i : Instr) : (encode i).length = i.len := by
  cases i <;> rfl

/-- The operand bytes of a word are those it was put together from (R74, R88). -/
@[simp] theorem operandBytes_le32 (b0 b1 b2 b3 : Byte) :
    operandBytes (le32 b0 b1 b2 b3) = [b0, b1, b2, b3] := by
  have hbyte (k : Nat) :
      (byteOf (le32 b0 b1 b2 b3) k).toNat = (le32 b0 b1 b2 b3).toNat / 2 ^ (8 * k) % 2 ^ 8 := by
    simp [byteOf, Nat.shiftRight_eq_div_pow]
  have h0 := b0.isLt
  have h1 := b1.isLt
  have h2 := b2.isLt
  have h3 := b3.isLt
  simp only [operandBytes, List.cons.injEq, ← BitVec.toNat_inj, hbyte, le32_toNat, and_true]
  omega

/-- The opcode byte the encoder gives a table row, from the row's field values (R88). -/
def opcodeOf (dst src : Field) : Mnemonic → Byte
  | .halt => 0x01#8
  | .out => 0x02#8
  | .jez => 0x21#8
  | .jnz => 0x22#8
  | .cmp => 0xC1#8
  | .add => 0xC2#8
  | .sub => 0xC3#8
  | .xor => 0xC4#8
  | .aptr => 0xE1#8
  | .mv => moveOpcode 0x40#8 dst src
  | .mvi => moveOpcode 0x40#8 dst 0#3
  | .mv32 => moveOpcode 0x80#8 dst src
  | .mvi32 => moveOpcode 0x80#8 dst 0#3

/-- Every opcode byte in the table is the one its row and its fields give: no bit of it is dropped
(R71, R78). -/
theorem opcodeOf_fields {op : Byte} {mn : Mnemonic} (h : mnemonicOf op = some mn) :
    opcodeOf (dstField op) (srcField op) mn = op := by
  have hall : ∀ op : Byte, ∀ mn ∈ mnemonicOf op, opcodeOf (dstField op) (srcField op) mn = op := by
    decide
  exact hall op mn h

section
variable {ε : Type} {unknown : Byte → ε} {fetch : Nat → Except ε Byte} {i : Instr}

/-- Where the operands of a fetched opcode decode, the bytes fetched are the instruction's encoding. -/
theorem spells_encode_of_decodeOperands {op : Byte} {mn : Mnemonic} (h0 : fetch 0 = .ok op)
    (hmn : mnemonicOf op = some mn) (h : decodeOperands mn op fetch = .ok i) :
    Spells fetch (encode i) := by
  have hop : fetch 0 = .ok (opcodeOf (dstField op) (srcField op) mn) :=
    h0.trans (congrArg _ (opcodeOf_fields hmn).symm)
  cases mn with
  | halt | out | cmp | add | sub | xor | mv | mv32 =>
    cases h
    exact spells_cons.mpr ⟨hop, spells_nil⟩
  | aptr | mvi =>
    obtain ⟨v, hv, rfl⟩ := except_map_ok.mp h
    exact spells_cons.mpr ⟨hop, spells_cons.mpr ⟨hv, spells_nil⟩⟩
  | jez | jnz | mvi32 =>
    obtain ⟨v, hv, rfl⟩ := except_map_ok.mp h
    obtain ⟨b0, b1, b2, b3, h1, h2, h3, h4, rfl⟩ := fetchImm32_ok.mp hv
    exact spells_cons.mpr ⟨hop, by simp [h1, h2, h3, h4]⟩

/-- A decode gives an instruction exactly when it is one the table spells and the bytes fetched are its
encoding (R84, R85, R88). -/
theorem decodeWith_ok_iff_spells :
    decodeWith unknown fetch = .ok i ↔ i.wf = true ∧ Spells fetch (encode i) := by
  constructor
  · intro h
    obtain ⟨op, mn, h0, hmn, ho⟩ := decodeWith_ok.mp h
    exact ⟨wf_of_decodeOperands hmn ho, spells_encode_of_decodeOperands h0 hmn ho⟩
  · rintro ⟨hi, hbytes⟩
    exact decodeWith_encode hi hbytes

end

/-- A list decodes to the well-formed instruction whose encoding it begins with. -/
theorem decode_ok_iff {bytes rest : List Byte} {i : Instr} :
    decode bytes = .ok (i, rest) ↔
      i.wf = true ∧ encode i <+: bytes ∧ rest = bytes.drop i.len := by
  rw [← spells_byteAt_iff, ← and_assoc, ← decodeWith_ok_iff_spells (unknown := .unknownOpcode)]
  unfold decode
  cases decodeWith .unknownOpcode (byteAt bytes) with
  | error r => simp
  | ok j =>
    simp only [Except.ok.injEq, Prod.mk.injEq]
    constructor
    · rintro ⟨rfl, rfl⟩
      exact ⟨rfl, rfl⟩
    · rintro ⟨rfl, rfl⟩
      exact ⟨rfl, rfl⟩

/-- Settles O5: the list begins with the encoding, and dropping its length leaves the rest. -/
theorem decodeOfEncodeIsTheInstruction : Obligations.DecodeOfEncodeIsTheInstruction := fun i rest hi =>
  decode_ok_iff.mpr ⟨hi, List.prefix_append _ _, by rw [← length_encode, List.drop_left]⟩

/-- Settles O6: the encoding is the beginning of the list, and the rest is what follows it. -/
theorem encodeOfDecodeIsTheBytes : Obligations.EncodeOfDecodeIsTheBytes := by
  intro bytes i rest h
  obtain ⟨hi, ⟨tail, rfl⟩, rfl⟩ := decode_ok_iff.mp h
  exact ⟨hi, by rw [← length_encode, List.drop_left]⟩

/-- Settles O7: the decoder run on each word. -/
theorem wordsOfTheSpecDecode : Obligations.WordsOfTheSpecDecode := by
  unfold Obligations.WordsOfTheSpecDecode
  and_intros <;> decide

end Sys2Proof

namespace Sys2Proof.Machine

/-! ### Decoding over memory -/

/-- Over memory: the bytes at `p` are the encoding of a well-formed instruction. -/
theorem decodeAt_ok_iff_spells {m : Memory} {p : Nat} {i : Instr} :
    decodeAt m p = .ok i ↔ i.wf = true ∧ Spells (fun k => m.fetch (p + k)) (encode i) :=
  decodeWith_ok_iff_spells

/-- Settles O11: the bytes of the encoding are the ones within the instruction's length, where the two
memories agree. -/
theorem decodeDependsOnlyOnTheInstructionBytes :
    Obligations.DecodeDependsOnlyOnTheInstructionBytes := by
  intro m m' p i h hagree
  obtain ⟨hi, hbytes⟩ := decodeAt_ok_iff_spells.mp h
  refine decodeAt_ok_iff_spells.mpr ⟨hi, fun k b hb => ?_⟩
  have hk : k < i.len := length_encode i ▸ (List.getElem?_eq_some_iff.mp hb).1
  exact (hagree k hk).trans (hbytes k b hb)

end Sys2Proof.Machine
end

section
/-! The step family (spec/30_encoding.md sections 6 and 8): the order of decode's checks, the advance of
`pc`, and that a Running state always has a next one. -/

namespace Sys2Proof.Machine

/-! ### What decides a decode over memory -/

section
variable {m : Memory} {p : Nat} {op : Byte} {mn : Mnemonic}

/-- A read below `MEM_LEN` does not fail (R55). -/
theorem Memory.fetch_ne_error {addr : Nat} {reason : Abort} (h : addr < m.len) :
    m.fetch addr ≠ .error reason := by
  intro herr
  obtain ⟨hle, -⟩ := Memory.read_error.mp herr
  omega

/-- An opcode in the table whose operand bytes all lie below `MEM_LEN` decodes to an instruction of its
mnemonic (R85). -/
theorem exists_decodeAt_ok (h0 : m.fetch p = .ok op) (hmn : mnemonicOf op = some mn)
    (hin : p + mn.len ≤ m.len) : ∃ i, i.mnemonic = mn ∧ decodeAt m p = .ok i := by
  rw [decodeAt_of_mnemonic h0 hmn]
  cases hd : decodeOperands mn op (fun k => m.fetch (p + k)) with
  | ok i => exact ⟨i, mnemonic_of_decodeOperands hd, rfl⟩
  | error r =>
    obtain ⟨k, -, hk, herr, -⟩ := decodeOperands_error hd
    exact absurd herr (Memory.fetch_ne_error (by omega))

/-- An opcode in the table whose operand runs past the end fails at the first byte past it, which is
the one at `MEM_LEN` (R85, R186). -/
theorem decodeAt_of_short_operand (h0 : m.fetch p = .ok op) (hmn : mnemonicOf op = some mn)
    (hout : m.len < p + mn.len) : decodeAt m p = .error (.addressError m.len) := by
  rw [decodeAt_of_mnemonic h0 hmn]
  cases hd : decodeOperands mn op (fun k => m.fetch (p + k)) with
  | ok i =>
    have hend : p + i.len ≤ m.len := add_len_le_of_decodeAt ((decodeAt_of_mnemonic h0 hmn).trans hd)
    have hlen : i.len = mn.len := congrArg Mnemonic.len (mnemonic_of_decodeOperands hd)
    omega
  | error r =>
    obtain ⟨k, hk, -, herr, hbefore⟩ := decodeOperands_error hd
    obtain ⟨hle, rfl⟩ := Memory.read_error.mp herr
    have hlast : p + (k - 1) < m.len := by
      rcases Nat.eq_or_lt_of_le hk with rfl | hk1
      · exact (Memory.read_ok.mp h0).1
      · obtain ⟨b, hb⟩ := hbefore (k - 1) (by omega) (by omega)
        exact (Memory.read_ok.mp hb).1
    rw [show p + k = m.len by omega]

end

/-! ### A step whose decode fails, and one whose decode succeeds -/

/-- A decode that fails ends the step in its abort, with the output as it was (R182, R184). -/
theorem step_abortedFrom {s : State} {reason : Abort} (hs : s.status = .running)
    (h : decodeAt s.mem (s.x32 .pc).toNat = .error reason) :
    ∃ t, step s = .next t ∧ AbortedFrom reason s t :=
  ⟨_, step_decode_error hs h, rfl, rfl⟩

/-- Settles O15: each check that fails is the error of decode, and when none does the instruction has
the opcode's mnemonic, so the advance is by its length. -/
theorem decodeChecksRunInTheStatedOrder : Obligations.DecodeChecksRunInTheStatedOrder := by
  rintro s p hs rfl
  refine ⟨fun hout => step_abortedFrom hs (decodeAt_of_len_le hout),
    fun op h0 hnone => step_abortedFrom hs ((decodeAt_decodeError_iff h0).mpr hnone),
    fun op mn h0 hmn hout => step_abortedFrom hs (decodeAt_of_short_operand h0 hmn hout),
    fun op mn h0 hmn hin => ?_⟩
  obtain ⟨i, rfl, hd⟩ := exists_decodeAt_ok h0 hmn hin
  exact ⟨i, rfl, step_exec hs hd⟩

/-- Settles O13: what decodes is well formed, and the advance is the write of `pc`. -/
theorem stepIsExecOfWhatIsDecoded : Obligations.StepIsExecOfWhatIsDecoded := fun _ _ hs hd =>
  ⟨wf_of_decodeAt hd, step_exec hs hd⟩

/-- Settles O14: the last byte of the instruction was fetched, so the sum is within `MEM_LEN`, which is
below `2^32`. -/
theorem pcAdvanceNeverWraps : Obligations.PcAdvanceNeverWraps := by
  intro s i hm hd
  obtain ⟨-, -, hlen⟩ := Memory.wf_iff.mp hm
  have hend : (s.x32 .pc).toNat + i.len ≤ s.mem.len := add_len_le_of_decodeAt hd
  exact ⟨hend, toNat_advancePc (hend.trans hlen)⟩

/-- Every body answers a next state (R99). -/
theorem exists_exec_next (i : Instr) (s : State) : ∃ t, exec i s = .next t := by
  rcases exec_cases i s with ⟨t, ht, -⟩ | ⟨reason, hr, -⟩
  · exact ⟨t, ht⟩
  · exact ⟨_, hr⟩

/-- Settles O17: a decode that fails answers its abort, and one that does not leaves the answer to a
body, which has one. -/
theorem runningStepAlwaysAnswers : Obligations.RunningStepAlwaysAnswers := by
  intro s hs
  cases hd : fetchInstr s with
  | error reason => exact ⟨_, step_decode_error hs hd⟩
  | ok i => exact step_exec hs hd ▸ exists_exec_next i _

/-! ### A fetch of bytes just written -/

/-- Settles O45: the byte stored is read by the fetch at the same address, and the store leaves `pc`, so
the next step decodes the encoding it wrote. -/
theorem storesAreSeenByTheNextFetch : Obligations.StoresAreSeenByTheNextFetch := by
  intro s t rs i hs hm hin hpc hi henc hexec
  obtain ⟨u, hu, hregs8, hregs32, hread, -, -, hstatus, -⟩ :=
    finish_of_ok (s := s) (move8_reg_src fldMem rs s ▸ write8_mem_stores (s.x8 rs) hm hin)
  obtain rfl : u = t := by simpa [exec, execMv, hu] using hexec
  have hpc' : (u.x32 .pc).toNat = s.ea := (congrArg _ (hregs32 .pc (by simp))).trans hpc
  have hd : fetchInstr u = .ok i :=
    decodeAt_ok_iff_spells.mpr ⟨hi, by simpa [henc, hpc', Memory.fetch_eq_read] using hread⟩
  have hlen : i.len = 1 := by simp [← length_encode, henc]
  exact hlen ▸ step_exec (hstatus.trans hs) hd

/-- Bytes written into the cells leave every address below them as it was. -/
theorem cellsRead_cellsWriteBytes_below {cells : List Host.Cell} {base addr : Nat}
    {bytes : List Byte} (h : addr < base) :
    cellsRead (cellsWriteBytes cells base bytes) addr = cellsRead cells addr := by
  induction bytes generalizing cells base with
  | nil => rfl
  | cons b rest ih =>
    rw [cellsWriteBytes, ih (by omega), cellsRead_cellsWrite_other (by omega)]

/-- Bytes written into the cells are read back at their indices. -/
theorem cellsRead_cellsWriteBytes {cells : List Host.Cell} {base k : Nat} {bytes : List Byte} {b : Byte}
    (hc : CellsFrom 0 cells) (h : bytes[k]? = some b) :
    cellsRead (cellsWriteBytes cells base bytes) (base + k) = b := by
  induction bytes generalizing cells base k with
  | nil => cases h
  | cons c rest ih =>
    cases k with
    | zero =>
      cases h
      rw [cellsWriteBytes, cellsRead_cellsWriteBytes_below (by omega), Nat.add_zero,
        cellsRead_cellsWrite_same hc]
    | succ k =>
      rw [cellsWriteBytes, ← Nat.add_assoc, Nat.add_right_comm]
      exact ih (cellsFrom_cellsWrite hc (Nat.zero_le _)) h

/-- An overlaid memory spells the bytes laid over it. -/
theorem spells_overlay {m : Memory} (hm : m.wf) (base : Nat) (bytes : List Byte) :
    Spells (fun k => (m.overlay base bytes).fetch (base + k)) bytes := by
  intro k b hb
  obtain ⟨hk, -⟩ := List.getElem?_eq_some_iff.mp hb
  have hlt : base + k < max m.len (base + bytes.length) := by omega
  exact Memory.read_ok.mpr ⟨hlt, cellsRead_cellsWriteBytes (Memory.wf_iff.mp hm).1 hb⟩

/-- What the word's reader answers is a well-formed instruction whose encoding the word's bytes begin
with. -/
theorem of_decodeTableWord {nbits w : Nat} {i : Instr} (h : decodeTableWord nbits w = some i) :
    i.wf = true ∧ encode i <+: tableBytes nbits w := by
  unfold decodeTableWord at h
  split at h
  · cases h
  · next hd =>
    cases h
    obtain ⟨hi, hpre, -⟩ := decode_ok_iff.mp hd
    exact ⟨hi, hpre⟩

/-- Settles O49: the placed memory spells the word's bytes at `pc`, which begin with the instruction's
encoding, so the step decodes it. -/
theorem withFetchWordRunsThatInstruction : Obligations.WithFetchWordRunsThatInstruction := by
  intro s nbits w i hm hword
  obtain ⟨hi, hpre⟩ := of_decodeTableWord hword
  have hbytes := spells_overlay hm (s.x32 .pc).toNat (tableBytes nbits w)
  exact step_exec rfl (decodeAt_ok_iff_spells.mpr ⟨hi, hbytes.of_prefix hpre⟩)

end Sys2Proof.Machine
end

section
/-! What a body and a step write (spec/10_state.md sections 2, 5 and 6): the write listed for each
instruction, and the frame of registers, memory, output and parameters that follows from it. -/

namespace Sys2Proof.Machine

/-! ### Each body writes what is listed for it -/

section
variable {i : Instr} {s t : State}

/-- A body that wrote what R29's table lists for the instruction: one register, the byte at the effective
address, the output or the status, or nothing. -/
inductive ListedWrite (i : Instr) (s : State) : State → Prop where
  | nothing : ListedWrite i s s
  | reg8 {r : Reg8} (v : Byte) (hr : r ∈ writes8 i) : ListedWrite i s (s.setX8 r v)
  | reg32 {r : Reg32} (v : Word) (hr : r ∈ writes32 i) : ListedWrite i s (s.setX32 r v)
  | memory {v : Byte} {m : Memory} (hi : writesMemory i = true) (hw : s.mem.write s.ea v = .ok m) :
      ListedWrite i s (s.setMem m)
  | output (hi : i = .out) (hroom : s.params.outCap ≠ some s.out.length) :
      ListedWrite i s (s.appendOut (s.x8 .a))
  | status (hi : i = .halt) : ListedWrite i s (s.setStatus .halted)

/-- A write by field is listed for an instruction whose destination is that field, in the 8-bit context. -/
theorem listedWrite_of_write8 {dst : Field} {v : Byte} (hregs : writes8 i = (reg8OfField dst).toList)
    (hmem : writesMemory i = (dst == 7#3)) (h : write8 dst v s = .ok t) : ListedWrite i s t := by
  rcases write8_ok h with ⟨r, rfl, rfl⟩ | ⟨rfl, m, hm, rfl⟩
  · exact .reg8 v (by simp [hregs])
  · exact .memory hmem hm

/-- The same in the 32-bit context. -/
theorem listedWrite_of_write32 {dst : Field} {v : Word}
    (hregs : writes32 i = (reg32OfField dst).toList) (hmem : writesMemory i = (dst == 7#3))
    (h : write32 dst v s = .ok t) : ListedWrite i s t := by
  rcases write32_ok h with ⟨r, rfl, rfl⟩ | ⟨rfl, m, hm, rfl⟩
  · exact .reg32 v (by simp [hregs])
  · exact .memory hmem hm

/-- A body raises, or what its computation makes is the state after it. -/
theorem finish_raises_or {P : Prop} {result : Except Abort State} (h : finish s result = .next t)
    (hok : result = .ok t → P) : P ∨ ∃ reason, t = s.raise reason := by
  rcases finish_next.mp h with ht | ⟨reason, -, rfl⟩
  · exact .inl (hok ht)
  · exact .inr ⟨reason, rfl⟩

/-- Every body writes what is listed for its instruction, or raises (R29, R148). -/
theorem exec_listedWrite (h : exec i s = .next t) :
    ListedWrite i s t ∨ ∃ reason, t = s.raise reason := by
  cases i with
  | halt =>
    cases h
    exact .inl (.status rfl)
  | add | sub | xor | cmp =>
    cases h
    exact .inl (.reg8 _ (by simp [writes8]))
  | jez target | jnz target =>
    cases h
    left
    split
    · exact .reg32 target (by simp [writes32])
    · exact .nothing
  | out =>
    refine finish_raises_or h fun hok => ?_
    split at hok
    · cases hok
    · next hroom =>
      cases hok
      exact .output rfl (outFull_iff.not.mp hroom)
  | aptr imm =>
    refine finish_raises_or h fun hok => ?_
    obtain ⟨v, -, rfl⟩ := except_map_ok.mp hok
    exact .reg32 v (by simp [writes32])
  | mv dst src =>
    refine finish_raises_or h fun hok => ?_
    obtain ⟨v, hw⟩ := move8_ok hok
    exact listedWrite_of_write8 rfl rfl hw
  | mvi dst imm => exact finish_raises_or h (listedWrite_of_write8 rfl rfl)
  | mv32 dst src =>
    refine finish_raises_or h fun hok => ?_
    obtain ⟨v, hw⟩ := move32_ok hok
    exact listedWrite_of_write32 rfl rfl hw
  | mvi32 dst imm => exact finish_raises_or h (listedWrite_of_write32 rfl rfl)

/-- A body that does not abort writes what is listed for its instruction. -/
theorem listedWrite_of_not_aborted (h : exec i s = .next t)
    (hsafe : ∀ reason, t.status ≠ .aborted reason) : ListedWrite i s t := by
  rcases exec_listedWrite h with hw | ⟨reason, rfl⟩
  · exact hw
  · exact absurd rfl (hsafe reason)

theorem ListedWrite.same8But (h : ListedWrite i s t) : Same8But (writes8 i) s t := by
  intro q hq
  cases h with
  | reg8 v hr => simp [ne_of_mem_of_not_mem hr hq |>.symm]
  | nothing | reg32 | memory | output | status => rfl

theorem ListedWrite.same32But (h : ListedWrite i s t) : Same32But (writes32 i) s t := by
  intro q hq
  cases h with
  | reg32 v hr => simp [ne_of_mem_of_not_mem hr hq |>.symm]
  | nothing | reg8 | memory | output | status => rfl

/-- Memory kept, or one byte stored at the effective address: every other byte is the same (R60). -/
theorem KeepsOrStores.sameMemoryBut {stores : Prop} (h : KeepsOrStores stores s t) :
    SameMemoryBut s.ea s t := by
  rcases h with hkeep | ⟨-, v, hm⟩
  · simp [SameMemoryBut, hkeep]
  · exact ⟨Memory.write_len hm, fun _ hne => Memory.read_write_other hm hne⟩

theorem KeepsOrStores.sameMemory {stores : Prop} (h : KeepsOrStores stores s t) (hno : ¬ stores) :
    SameMemory s t := by
  rcases h with hkeep | ⟨hst, -⟩
  · simp [SameMemory, hkeep]
  · exact absurd hst hno

/-- A body leaves the output, or is OUT's and appends the accumulator to a buffer with room (R38, R130). -/
theorem exec_out_cases (h : exec i s = .next t) :
    t.out = s.out ∨
      i = .out ∧ s.params.outCap ≠ some s.out.length ∧ t.out = s.out ++ [s.x8 .a] := by
  rcases exec_listedWrite h with hw | ⟨reason, rfl⟩
  · cases hw with
    | output hi hroom => exact .inr ⟨hi, hroom, rfl⟩
    | nothing | reg8 | reg32 | memory | status => exact .inl rfl
  · exact .inl rfl

theorem exec_params (h : exec i s = .next t) : t.params = s.params := by
  rcases exec_listedWrite h with hw | ⟨reason, rfl⟩
  · cases hw <;> rfl
  · rfl

end

/-- Settles O42: the registers by the write listed for the instruction, memory by the store its
destination makes, the status by what a body can do to it, and the output by OUT. -/
theorem bodiesWriteOnlyWhatIsListed : Obligations.BodiesWriteOnlyWhatIsListed := by
  intro i s t h
  refine ⟨fun hsafe => ?_, fun hi => ?_, exec_params h⟩
  · have hw : ListedWrite i s t := listedWrite_of_not_aborted h hsafe
    have hmem := exec_keepsOrStores h
    refine ⟨hw.same8But, hw.same32But, hmem.sameMemoryBut, fun hno => hmem.sameMemory (by simp [hno]),
      fun hi => ?_, fun hi => ?_⟩
    · obtain ⟨hhalt, -⟩ | ⟨-, hkeep | ⟨reason, hr⟩⟩ := exec_status_cases h
      · exact absurd hhalt hi
      · exact hkeep
      · exact absurd hr (hsafe reason)
    · obtain ⟨-, hhalted⟩ | ⟨hne, -⟩ := exec_status_cases h
      · exact hhalted
      · exact absurd hi hne
  · obtain hkeep | ⟨hout, -⟩ := exec_out_cases h
    · exact hkeep
    · exact absurd hout hi

/-! ### The frame of a step -/

section
variable {s t : State}

theorem step_mem_len (h : step s = .next t) : t.mem.len = s.mem.len := by
  obtain ⟨hlen, -⟩ := (step_keepsOrStores h).sameMemoryBut
  exact hlen

theorem step_params (h : step s = .next t) : t.params = s.params := by
  obtain ⟨-, ⟨reason, -, rfl⟩ | ⟨i, -, hx⟩⟩ := step_next h
  · rfl
  · exact exec_params (s := s.advancePc i.len) hx

/-- A step leaves the output, or decoded OUT and appended the accumulator to a buffer with room (R38,
R130). -/
theorem step_out_cases (h : step s = .next t) :
    t.out = s.out ∨
      fetchInstr s = .ok .out ∧ s.params.outCap ≠ some s.out.length ∧ t.out = s.out ++ [s.x8 .a] := by
  obtain ⟨-, ⟨reason, -, rfl⟩ | ⟨i, hf, hx⟩⟩ := step_next h
  · exact .inl rfl
  · rcases exec_out_cases hx with hkeep | ⟨rfl, hroom, hout⟩
    · exact .inl hkeep
    · exact .inr ⟨hf, hroom, hout⟩

end

/-- Settles O43: a step keeps memory or stores at the effective address. -/
theorem everyStepChangesAtMostTheByteAtTheEffectiveAddress :
    Obligations.EveryStepChangesAtMostTheByteAtTheEffectiveAddress := fun _ _ h _ =>
  (step_keepsOrStores h).sameMemoryBut

/-- Settles O33: the room an append needs is left out. -/
theorem onlyOutGrowsTheOutput : Obligations.OnlyOutGrowsTheOutput := fun _ _ h =>
  (step_out_cases h).imp_right fun ⟨hf, _, hout⟩ => ⟨hf, hout⟩

end Sys2Proof.Machine
end

section
/-! The invariant (spec/10_state.md sections 5 and 6): it holds after a load and every step keeps it. -/

namespace Sys2Proof.Machine

/-- A step keeps the canonical form of memory: the byte it stores keeps it (R36, R37). -/
theorem step_mem_wf {s t : State} (hm : s.mem.wf) (h : step s = .next t) : t.mem.wf := by
  rcases step_keepsOrStores h with hkeep | ⟨-, v, hw⟩
  · exact hkeep ▸ hm
  · exact Memory.wf_write hm hw

/-- A step keeps the output within its capacity: OUT appends only where the buffer is not full, which
one within its capacity is exactly when it is below it (R38, R130). -/
theorem step_out_le_cap {s t : State} (hcap : ∀ cap ∈ s.params.outCap, s.out.length ≤ cap)
    (h : step s = .next t) : ∀ cap ∈ t.params.outCap, t.out.length ≤ cap := by
  rw [step_params h]
  intro cap hmem
  have hle : s.out.length ≤ cap := hcap cap hmem
  rcases step_out_cases h with hkeep | ⟨-, hroom, hout⟩
  · rwa [hkeep]
  · have hne : s.out.length ≠ cap := fun heq => hroom (heq ▸ hmem)
    rw [hout, List.length_append, List.length_singleton]
    omega

/-- Settles O4: the two parts of the invariant are kept each by itself. -/
theorem everyStepKeepsTheInvariant : Obligations.EveryStepKeepsTheInvariant :=
  fun _ _ ⟨hm, hcap⟩ h => ⟨step_mem_wf hm h, step_out_le_cap hcap h⟩

/-- A load that fits meets the invariant: its memory lists the bytes, its output is empty (R211). -/
theorem inv_loadState {params : Config.Params} {bytes : List Byte}
    (h : bytes.length ≤ Config.maxMemLen) : (loadState params bytes).Inv :=
  ⟨Memory.wf_ofBytes h, fun _ _ => Nat.zero_le _⟩

/-- Settles O3: reset is the load of no bytes, and a first load is accepted only if it fits. -/
theorem invariantHoldsAtResetAndAfterLoad : Obligations.InvariantHoldsAtResetAndAfterLoad := by
  refine ⟨inv_loadState (params := Config.defaultParams) (bytes := []) (Nat.zero_le _), rfl,
    fun params bytes s h => ?_⟩
  obtain ⟨hfits, rfl⟩ := firstLoad_next.mp h
  exact inv_loadState hfits

end Sys2Proof.Machine
end

section
/-! Control transfer (spec/41_branch.md R122): which bodies move `pc` off the next instruction. -/

namespace Sys2Proof.Machine

/-- Only jumps and the 32-bit moves with destination `pc` list `pc` among what they write (R122). -/
theorem pc_mem_writes32 {i : Instr} (h : .pc ∈ writes32 i) :
    (∃ target, i = .jez target) ∨ (∃ target, i = .jnz target) ∨ (∃ src, i = .mv32 (fld32 .pc) src) ∨
      ∃ target, i = .mvi32 (fld32 .pc) target := by
  have hdst {dst : Field} (hd : .pc ∈ (reg32OfField dst).toList) : dst = fld32 .pc := by
    revert dst; decide
  cases i with
  | jez target => exact .inl ⟨target, rfl⟩
  | jnz target => exact .inr (.inl ⟨target, rfl⟩)
  | mv32 dst src => exact .inr (.inr (.inl ⟨src, by rw [hdst h]⟩))
  | mvi32 dst target => exact .inr (.inr (.inr ⟨target, by rw [hdst h]⟩))
  | halt | out | cmp | add | sub | xor | aptr | mv | mvi => simp [writes32] at h

/-- A body that moves `pc` and does not abort is that of a taken jump or of a move to `pc` (R122). -/
theorem exec_moves_pc {i : Instr} {s t : State} (h : exec i s = .next t)
    (hsafe : ∀ reason, t.status ≠ .aborted reason) (hpc : t.x32 .pc ≠ s.x32 .pc) :
    (∃ target, i = .jez target ∧ s.x8 .f = 0#8 ∧ t.x32 .pc = target) ∨
      (∃ target, i = .jnz target ∧ s.x8 .f ≠ 0#8 ∧ t.x32 .pc = target) ∨
      (∃ src, i = .mv32 (fld32 .pc) src) ∨
      ∃ target, i = .mvi32 (fld32 .pc) target ∧ t.x32 .pc = target := by
  have hlisted : .pc ∈ writes32 i := by
    by_contra hno
    exact hpc ((listedWrite_of_not_aborted h hsafe).same32But .pc hno)
  rcases pc_mem_writes32 hlisted with ⟨target, rfl⟩ | ⟨target, rfl⟩ | hmv32 | ⟨target, rfl⟩
  · by_cases hf : s.x8 .f = 0#8
    · obtain rfl : s.setX32 .pc target = t := by simpa [exec_jez_taken hf] using h
      exact .inl ⟨target, rfl, hf, by simp⟩
    · obtain rfl : s = t := by simpa [exec_jez_not_taken hf] using h
      exact absurd rfl hpc
  · by_cases hf : s.x8 .f = 0#8
    · obtain rfl : s = t := by simpa [exec_jnz_not_taken hf] using h
      exact absurd rfl hpc
    · obtain rfl : s.setX32 .pc target = t := by simpa [exec_jnz_taken hf] using h
      exact .inr (.inl ⟨target, rfl, hf, by simp⟩)
  · exact .inr (.inr (.inl hmv32))
  · obtain ⟨u, hu, hpc', -⟩ := finish_of_ok (s := s) (write32_reg_writes s .pc target)
    obtain rfl : u = t := Host.Outcome.next.inj (hu.symm.trans h)
    exact .inr (.inr (.inr ⟨target, rfl, hpc'⟩))

/-- Settles O28: the step is the body after the advance, which leaves `f` as it was. -/
theorem onlyJumpsAndPcMovesTransferControl : Obligations.OnlyJumpsAndPcMovesTransferControl := by
  intro s t i hd h hsafe hpc
  have hx : exec i (s.advancePc i.len) = .next t := (step_exec (step_next h).1 hd).symm.trans h
  exact exec_moves_pc (s := s.advancePc i.len) hx hsafe hpc

end Sys2Proof.Machine
end

section
/-! Runs (spec/00_scope.md section 6): what every run keeps, and that a run ends in one way. -/

namespace Sys2Proof.Machine

/-- Settles O46: each part is kept by every step, the output because a step only appends. -/
theorem runsKeepMemorySizeParametersAndEarlierOutput :
    Obligations.RunsKeepMemorySizeParametersAndEarlierOutput := by
  intro s t h
  induction h with
  | refl => exact ⟨rfl, rfl, List.prefix_rfl⟩
  | tail _ hstep ih =>
    obtain ⟨hlen, hparams, hout⟩ := ih
    refine ⟨(step_mem_len hstep).trans hlen, (step_params hstep).trans hparams, hout.trans ?_⟩
    rcases step_out_cases hstep with hkeep | ⟨-, -, happ⟩
    · rw [hkeep]
    · exact ⟨_, happ.symm⟩

/-- A run is empty, or its first step is that of the state it starts from. -/
theorem reaches_head_cases {s u : State} (h : Reaches s u) :
    u = s ∨ ∃ v, step s = .next v ∧ Reaches v u := by
  induction h with
  | refl => exact .inl rfl
  | tail _ hstep ih =>
    rcases ih with rfl | ⟨v, hv, hrun⟩
    · exact .inr ⟨_, hstep, .refl _⟩
    · exact .inr ⟨v, hv, .tail hrun hstep⟩

/-- Of two states of one run, one follows from the other: a step has one next state. -/
theorem reaches_total {s t u : State} (ht : Reaches s t) (hu : Reaches s u) :
    Reaches t u ∨ Reaches u t := by
  induction ht with
  | refl => exact .inl hu
  | tail _ hstep ih =>
    rcases ih with hforth | hback
    · rcases reaches_head_cases hforth with rfl | ⟨v, hv, hrun⟩
      · exact .inr (.tail (.refl _) hstep)
      · obtain rfl := Host.Outcome.next.inj (hv.symm.trans hstep)
        exact .inl hrun
    · exact .inr (.tail hback hstep)

/-- A run ends in one state: where it is no longer Running it takes no step (R41). -/
theorem end_of_run_unique {s t u : State} (ht : Reaches s t) (hu : Reaches s u)
    (htend : t.status ≠ .running) (huend : u.status ≠ .running) : u = t := by
  rcases reaches_total ht hu with hrun | hrun
  · exact eq_of_reaches_of_no_step (fun _ hstep => htend (step_next hstep).1) hrun
  · exact (eq_of_reaches_of_no_step (fun _ hstep => huend (step_next hstep).1) hrun).symm

theorem result_eq_some_iff {s : State} {bytes : List Byte} :
    s.result = some bytes ↔ s.status = .halted ∧ bytes = s.out := by
  unfold State.result
  cases s.status <;> simp [eq_comm]

/-- Settles O32: the result is read off the status. -/
theorem onlyHaltedYieldsAResult : Obligations.OnlyHaltedYieldsAResult := fun _ _ => result_eq_some_iff

/-- Settles O48: the Halted state is the end of the run, so no Aborted state and no other result is. -/
theorem aHaltingRunIsSafeAndHasOneResult : Obligations.AHaltingRunIsSafeAndHasOneResult := by
  rintro s bytes ⟨t, ht, hresult⟩
  obtain ⟨hhalted, rfl⟩ := result_eq_some_iff.mp hresult
  have hend : t.status ≠ .running := by simp [hhalted]
  refine ⟨fun u hu reason haborted => ?_, fun other ⟨u, hu, hother⟩ => ?_⟩
  · obtain rfl : u = t := end_of_run_unique ht hu hend (by simp [haborted])
    simp [hhalted] at haborted
  · obtain ⟨huhalted, rfl⟩ := result_eq_some_iff.mp hother
    obtain rfl : u = t := end_of_run_unique ht hu hend (by simp [huhalted])
    rfl

end Sys2Proof.Machine
end

section
/-! The output buffer is never read (spec/10_state.md R38): a body and a step do the same with another
buffer, as long as OUT finds it full or not alike. -/

namespace Sys2Proof.Machine

section
variable (o : List Byte) (s : State)

/-! ### Operand writes with another output -/

theorem writeMem_withOut (v : Byte) : writeMem v (withOut o s) = (writeMem v s).map (withOut o) := by
  change (s.mem.write s.ea v).map (withOut o s).setMem = _
  unfold writeMem
  cases s.mem.write s.ea v <;> rfl

theorem write8_withOut (i : Field) (v : Byte) :
    write8 i v (withOut o s) = (write8 i v s).map (withOut o) := by
  rcases field_cases8 i with rfl | ⟨r, rfl⟩ | rfl
  · rfl
  · simp only [write8_reg]
    rfl
  · simp only [write8_mem, writeMem_withOut]

theorem write32_withOut (i : Field) (v : Word) :
    write32 i v (withOut o s) = (write32 i v s).map (withOut o) := by
  rcases field_cases32 i with rfl | ⟨r, rfl⟩ | rfl
  · rfl
  · simp only [write32_reg]
    rfl
  · simp only [write32_mem, writeMem_withOut]

theorem read8_withOut (i : Field) : read8 i (withOut o s) = read8 i s := rfl

theorem read32_withOut (i : Field) : read32 i (withOut o s) = read32 i s := rfl

theorem move8_withOut (dst src : Field) :
    move8 dst src (withOut o s) = (move8 dst src s).map (withOut o) := by
  unfold move8
  rw [read8_withOut]
  cases notMemToMem dst src with
  | error r => rfl
  | ok _ =>
    cases read8 src s with
    | error r => rfl
    | ok v => exact write8_withOut o s dst v

theorem move32_withOut (dst src : Field) :
    move32 dst src (withOut o s) = (move32 dst src s).map (withOut o) := by
  unfold move32
  rw [read32_withOut]
  cases read32 src s with
  | error r => rfl
  | ok v => exact write32_withOut o s dst v

end

/-! ### Bodies and steps with another output -/

section
variable {o : List Byte} {s t : State}

theorem finish_withOut {result : Except Abort State} (h : finish s result = .next t) :
    finish (withOut o s) (result.map (withOut o)) = .next (withOut o t) := by
  cases result <;> cases h <;> rfl

theorem jumpIf_withOut {condition : Bool} {target : Word} (h : jumpIf condition target s = .next t) :
    jumpIf condition target (withOut o s) = .next (withOut o t) := by
  cases condition <;> cases h <;> rfl

/-- The body of an instruction other than OUT does the same whatever the output (R38). -/
theorem exec_withOut {i : Instr} (hi : i ≠ .out) (h : exec i s = .next t) :
    exec i (withOut o s) = .next (withOut o t) := by
  cases i with
  | out => exact absurd rfl hi
  | halt | add | sub | xor | cmp =>
    cases h
    rfl
  | jez target | jnz target => exact jumpIf_withOut h
  | aptr imm =>
    have hsum : ((aptrSum s.params.aptrOverflow (s.x32 .ptr) imm).map (s.setX32 .ptr)).map (withOut o) =
        (aptrSum s.params.aptrOverflow (s.x32 .ptr) imm).map ((withOut o s).setX32 .ptr) := by
      cases aptrSum s.params.aptrOverflow (s.x32 .ptr) imm <;> rfl
    exact (congrArg (finish (withOut o s)) hsum.symm).trans (finish_withOut h)
  | mv dst src => exact (congrArg _ (move8_withOut o s dst src)).trans (finish_withOut h)
  | mvi dst imm => exact (congrArg _ (write8_withOut o s dst imm)).trans (finish_withOut h)
  | mv32 dst src => exact (congrArg _ (move32_withOut o s dst src)).trans (finish_withOut h)
  | mvi32 dst imm => exact (congrArg _ (write32_withOut o s dst imm)).trans (finish_withOut h)

/-- OUT finds the buffer `o` full exactly when it finds that of `s` full: the capacity is unbounded, or
the two hold the same number of bytes (R130). -/
def FillsAlike (o : List Byte) (s : State) : Prop := s.params.outCap = none ∨ o.length = s.out.length

/-- OUT appends the accumulator to either buffer, or raises the same abort from both (R130). -/
theorem exec_out_withOut (h : exec .out s = .next t) :
    ∃ appended, t.out = s.out ++ appended ∧
      ∀ o, FillsAlike o s → exec .out (withOut o s) = .next (withOut (o ++ appended) t) := by
  by_cases hfull : s.params.outCap = some s.out.length
  · obtain rfl := Host.Outcome.next.inj ((exec_out_full hfull).symm.trans h)
    refine ⟨[], by simp, fun o ho => ?_⟩
    have hlen : o.length = s.out.length := ho.resolve_left (by simp [hfull])
    rw [exec_out_full (s := withOut o s) (hfull.trans (congrArg some hlen.symm)), List.append_nil,
      show (withOut o s).out.length = s.out.length from hlen]
    rfl
  · obtain rfl := Host.Outcome.next.inj ((exec_out_append hfull).symm.trans h)
    refine ⟨[s.x8 .a], rfl, fun o ho => ?_⟩
    have hroom : s.params.outCap ≠ some o.length := by
      rcases ho with hnone | hlen
      · simp [hnone]
      · rwa [hlen]
    exact exec_out_append (s := withOut o s) hroom

/-- A step appends the same bytes to every buffer that fills alike, and does the same otherwise. -/
theorem step_withOut (h : step s = .next t) :
    ∃ appended, t.out = s.out ++ appended ∧
      ∀ o, FillsAlike o s → step (withOut o s) = .next (withOut (o ++ appended) t) := by
  obtain ⟨hs, ⟨reason, hf, rfl⟩ | ⟨i, hf, hx⟩⟩ := step_next h
  · refine ⟨[], by simp, fun o _ => ?_⟩
    rw [List.append_nil]
    exact step_decode_error (s := withOut o s) hs hf
  · by_cases hi : i = .out
    · subst hi
      obtain ⟨appended, hout, hsame⟩ := exec_out_withOut hx
      exact ⟨appended, hout, fun o ho => (step_exec (s := withOut o s) hs hf).trans (hsame o ho)⟩
    · have hkeep : t.out = s.out := (exec_out_cases hx).resolve_right fun hout => hi hout.1
      refine ⟨[], by simp [hkeep], fun o _ => ?_⟩
      rw [List.append_nil]
      exact (step_exec (s := withOut o s) hs hf).trans (exec_withOut hi hx)

/-- Buffers that fill alike do so after the same bytes are appended to both. -/
theorem FillsAlike.append {appended : List Byte} (h : FillsAlike o s) (hparams : t.params = s.params)
    (hout : t.out = s.out ++ appended) : FillsAlike (o ++ appended) t := by
  unfold FillsAlike
  rw [hparams, hout, List.length_append, List.length_append]
  exact h.imp_right (congrArg (· + appended.length))

end

/-- Settles O47: step by step, with what the steps append put together; the buffers fill alike all along
the run. -/
theorem outputBufferIsNeverRead : Obligations.OutputBufferIsNeverRead := by
  intro s t h
  induction h with
  | refl => exact ⟨[], by simp, fun o _ => by simpa using Reaches.refl (withOut o s)⟩
  | tail hrun hstep ih =>
    obtain ⟨before, hout, hsame⟩ := ih
    obtain ⟨last, hlast, hstep'⟩ := step_withOut hstep
    obtain ⟨-, hparams, -⟩ := runsKeepMemorySizeParametersAndEarlierOutput _ _ hrun
    refine ⟨before ++ last, by rw [hlast, hout, List.append_assoc], fun o ho => ?_⟩
    have halike : FillsAlike (o ++ before) _ := FillsAlike.append ho hparams hout
    rw [← List.append_assoc]
    exact .tail (hsame o ho) (hstep' _ halike)

end Sys2Proof.Machine
end
